-- ==== Sys2Proof/Word.lean ====
section
/-!
DEFINITION. The word types of the machine (spec/00_scope.md R5, R6). Every value is unsigned (R6), so a
`BitVec` is read as the natural number `toNat`.
-/

namespace Sys2Proof

/-- Four bits: a register index, a key code or a sprite height (R62, R24). -/
abbrev Nibble := BitVec 4

/-- Eight bits: a general register, a timer, a byte of memory (R10, R22, R40). -/
abbrev Byte := BitVec 8

/-- Twelve bits: the address operand nnn (R62). -/
abbrev Addr12 := BitVec 12

/-- Sixteen bits: I, PC, a call-stack entry, an instruction word (R13, R14, R17, R60). -/
abbrev Word := BitVec 16

end Sys2Proof
end

