-- ==== Sys2Proof/Syntax.lean ====
section
/-!
DEFINITION. The 34 instructions of spec/30_encoding.md R64, in the order of its table, one constructor per row of
spec/opcode_table.json. The operands are the decoded fields of R62.
-/

namespace Sys2Proof

/-- An instruction with its operand fields: `x` and `y` register indices, `kk` the 8-bit immediate, `n` the 4-bit
immediate, `nnn` the 12-bit address (R62). Each field has its exact width, so no operand can be out of range. -/
inductive Instr where
  | clearScreen
  | ret
  | jump (nnn : Addr12)
  | call (nnn : Addr12)
  | skipEqImm (x : Nibble) (kk : Byte)
  | skipNeImm (x : Nibble) (kk : Byte)
  | skipEqReg (x y : Nibble)
  | setImm (x : Nibble) (kk : Byte)
  | addImm (x : Nibble) (kk : Byte)
  | move (x y : Nibble)
  | or (x y : Nibble)
  | and (x y : Nibble)
  | xor (x y : Nibble)
  | addReg (x y : Nibble)
  | subReg (x y : Nibble)
  | shiftRight (x y : Nibble)
  | subRegRev (x y : Nibble)
  | shiftLeft (x y : Nibble)
  | skipNeReg (x y : Nibble)
  | setIndex (nnn : Addr12)
  | jumpOffset (nnn : Addr12)
  | random (x : Nibble) (kk : Byte)
  | draw (x y n : Nibble)
  | skipIfKey (x : Nibble)
  | skipIfNotKey (x : Nibble)
  | readDelayTimer (x : Nibble)
  | awaitKey (x : Nibble)
  | setDelayTimer (x : Nibble)
  | setSoundTimer (x : Nibble)
  | addToIndex (x : Nibble)
  | fontCharAddress (x : Nibble)
  | storeBcd (x : Nibble)
  | blockStore (x : Nibble)
  | blockLoad (x : Nibble)
  deriving DecidableEq, Repr

end Sys2Proof
end

