-- ==== Sys2Proof/Decode.lean ====
section
/-!
DEFINITION. Decoding and encoding (spec/30_encoding.md R60 to R68). Decoding is a pure function of the word (R65) and is
total: a word that is no instruction is rejected by name (R66).
-/

namespace Sys2Proof

/-- Why bytes do not decode. -/
inductive DecodeError where
  /-- Fewer than two bytes: no instruction word can be read (R60). -/
  | truncated
  /-- The word matches no row of R64 (R66). -/
  | unknownOpcode (w : Word)
  deriving DecidableEq, Repr

/-- The top nibble w[15:12] (R62). -/
def fieldOp (w : Word) : Nibble := w.extractLsb' 12 4

/-- The first register index w[11:8] (R62). -/
def fieldX (w : Word) : Nibble := w.extractLsb' 8 4

/-- The second register index w[7:4] (R62). -/
def fieldY (w : Word) : Nibble := w.extractLsb' 4 4

/-- The low nibble w[3:0]: the 4-bit immediate, or the sub-opcode of format R (R62). -/
def fieldN (w : Word) : Nibble := w.extractLsb' 0 4

/-- The low byte w[7:0]: the 8-bit immediate, or the function byte of format F (R62). -/
def fieldKk (w : Word) : Byte := w.extractLsb' 0 8

/-- The address operand w[11:0] (R62). -/
def fieldNnn (w : Word) : Addr12 := w.extractLsb' 0 12

/-- Top nibble 0x0: two fixed words, and nothing else (R65, D4). -/
def decodeFixed (w : Word) : Except DecodeError Instr :=
  if w = 0x00E0 then .ok .clearScreen
  else if w = 0x00EE then .ok .ret
  else .error (.unknownOpcode w)

/-- Top nibble 0x8: the low nibble is the sub-opcode (R65). -/
def decodeAlu (w : Word) : Except DecodeError Instr :=
  let x := fieldX w
  let y := fieldY w
  match fieldN w with
  | 0x0#4 => .ok (.move x y)
  | 0x1#4 => .ok (.or x y)
  | 0x2#4 => .ok (.and x y)
  | 0x3#4 => .ok (.xor x y)
  | 0x4#4 => .ok (.addReg x y)
  | 0x5#4 => .ok (.subReg x y)
  | 0x6#4 => .ok (.shiftRight x y)
  | 0x7#4 => .ok (.subRegRev x y)
  | 0xE#4 => .ok (.shiftLeft x y)
  | _ => .error (.unknownOpcode w)

/-- Top nibble 0xE: the low byte is the function (R65). -/
def decodeKey (w : Word) : Except DecodeError Instr :=
  match fieldKk w with
  | 0x9E#8 => .ok (.skipIfKey (fieldX w))
  | 0xA1#8 => .ok (.skipIfNotKey (fieldX w))
  | _ => .error (.unknownOpcode w)

/-- Top nibble 0xF: the low byte is the function (R65). -/
def decodeMisc (w : Word) : Except DecodeError Instr :=
  match fieldKk w with
  | 0x07#8 => .ok (.readDelayTimer (fieldX w))
  | 0x0A#8 => .ok (.awaitKey (fieldX w))
  | 0x15#8 => .ok (.setDelayTimer (fieldX w))
  | 0x18#8 => .ok (.setSoundTimer (fieldX w))
  | 0x1E#8 => .ok (.addToIndex (fieldX w))
  | 0x29#8 => .ok (.fontCharAddress (fieldX w))
  | 0x33#8 => .ok (.storeBcd (fieldX w))
  | 0x55#8 => .ok (.blockStore (fieldX w))
  | 0x65#8 => .ok (.blockLoad (fieldX w))
  | _ => .error (.unknownOpcode w)

/-- Top nibbles 0x5 and 0x9: the low nibble must be 0 (R65, R66, D4). -/
def decodeCompare (i : Instr) (w : Word) : Except DecodeError Instr :=
  if fieldN w = 0 then .ok i else .error (.unknownOpcode w)

/-- Decode(w) of R65. -/
def decodeWord (w : Word) : Except DecodeError Instr :=
  match fieldOp w with
  | 0x0#4 => decodeFixed w
  | 0x1#4 => .ok (.jump (fieldNnn w))
  | 0x2#4 => .ok (.call (fieldNnn w))
  | 0x3#4 => .ok (.skipEqImm (fieldX w) (fieldKk w))
  | 0x4#4 => .ok (.skipNeImm (fieldX w) (fieldKk w))
  | 0x5#4 => decodeCompare (.skipEqReg (fieldX w) (fieldY w)) w
  | 0x6#4 => .ok (.setImm (fieldX w) (fieldKk w))
  | 0x7#4 => .ok (.addImm (fieldX w) (fieldKk w))
  | 0x8#4 => decodeAlu w
  | 0x9#4 => decodeCompare (.skipNeReg (fieldX w) (fieldY w)) w
  | 0xA#4 => .ok (.setIndex (fieldNnn w))
  | 0xB#4 => .ok (.jumpOffset (fieldNnn w))
  | 0xC#4 => .ok (.random (fieldX w) (fieldKk w))
  | 0xD#4 => .ok (.draw (fieldX w) (fieldY w) (fieldN w))
  | 0xE#4 => decodeKey w
  | _ => decodeMisc w

/-- The word of two bytes in memory order: the first is bits 15:8 (R43, R60). -/
def wordOfBytes (hi lo : Byte) : Word := hi ++ lo

/-- Decode the first instruction of a byte sequence, with the bytes after it. -/
def decode : List Byte → Except DecodeError (Instr × List Byte)
  | hi :: lo :: rest =>
    match decodeWord (wordOfBytes hi lo) with
    | .ok i => .ok (i, rest)
    | .error e => .error e
  | _ => .error .truncated

/-- Format A (R61): op :: nnn. -/
def formatA (op : Nibble) (nnn : Addr12) : Word := op ++ nnn

/-- Format K (R61): op :: x :: kk. Format F has the same layout, kk being its function byte. -/
def formatK (op x : Nibble) (kk : Byte) : Word := (op ++ x) ++ kk

/-- Format R (R61): op :: x :: y :: sub. Format D has the same layout, sub being its n. -/
def formatR (op x y sub : Nibble) : Word := (op ++ x) ++ (y ++ sub)

/-- The word of an instruction, from the encoding table of R64. -/
def encode : Instr → Word
  | .clearScreen => 0x00E0
  | .ret => 0x00EE
  | .jump nnn => formatA 0x1 nnn
  | .call nnn => formatA 0x2 nnn
  | .skipEqImm x kk => formatK 0x3 x kk
  | .skipNeImm x kk => formatK 0x4 x kk
  | .skipEqReg x y => formatR 0x5 x y 0x0
  | .setImm x kk => formatK 0x6 x kk
  | .addImm x kk => formatK 0x7 x kk
  | .move x y => formatR 0x8 x y 0x0
  | .or x y => formatR 0x8 x y 0x1
  | .and x y => formatR 0x8 x y 0x2
  | .xor x y => formatR 0x8 x y 0x3
  | .addReg x y => formatR 0x8 x y 0x4
  | .subReg x y => formatR 0x8 x y 0x5
  | .shiftRight x y => formatR 0x8 x y 0x6
  | .subRegRev x y => formatR 0x8 x y 0x7
  | .shiftLeft x y => formatR 0x8 x y 0xE
  | .skipNeReg x y => formatR 0x9 x y 0x0
  | .setIndex nnn => formatA 0xA nnn
  | .jumpOffset nnn => formatA 0xB nnn
  | .random x kk => formatK 0xC x kk
  | .draw x y n => formatR 0xD x y n
  | .skipIfKey x => formatK 0xE x 0x9E
  | .skipIfNotKey x => formatK 0xE x 0xA1
  | .readDelayTimer x => formatK 0xF x 0x07
  | .awaitKey x => formatK 0xF x 0x0A
  | .setDelayTimer x => formatK 0xF x 0x15
  | .setSoundTimer x => formatK 0xF x 0x18
  | .addToIndex x => formatK 0xF x 0x1E
  | .fontCharAddress x => formatK 0xF x 0x29
  | .storeBcd x => formatK 0xF x 0x33
  | .blockStore x => formatK 0xF x 0x55
  | .blockLoad x => formatK 0xF x 0x65

/-- The two bytes of a word in memory order (R43, R60). -/
def wordBytes (w : Word) : List Byte := [w.extractLsb' 8 8, w.extractLsb' 0 8]

/-- The bytes of an instruction in memory order. -/
def encodeBytes (i : Instr) : List Byte := wordBytes (encode i)

/-- The word whose bits 15:0 are those of the number `w`, as spec/opcode_table.json numbers them: a row has one word,
bit 0 its least significant bit, and the bits at and above `nbits` are 0. -/
def tableWord (nbits w : Nat) : Word := BitVec.ofNat 16 (w % 2 ^ nbits)

/-- The instruction the decoder reads from an instruction whose bits are `w`, laid out as the hardware stores it. -/
def decodeTableWord (nbits w : Nat) : Option Instr :=
  match decode (wordBytes (tableWord nbits w)) with
  | .ok (i, _) => some i
  | .error _ => none

end Sys2Proof
end

