-- ==== Sys2Proof/Config.lean ====
section
/-!
DEFINITION. What spec/00_scope.md R5 fixes for the machine, the parameters it leaves OPEN, and the free
values. A constant declared `opaque` has no body that a proof can see: a claim holds for every value of it.
-/

namespace Sys2Proof

/-- SHIFT_SRC (R5, D7): the register that shift-right and shift-left read. -/
inductive ShiftSrc where
  | vx
  | vy
  deriving DecidableEq, Repr, Inhabited

/-- MEM_INCREMENT (R5, D8): whether block-store and block-load add x + 1 to I afterwards. -/
inductive MemIncrement where
  | none
  | xPlus1
  deriving DecidableEq, Repr, Inhabited

/-- VF_WRITE_ORDER (R126, D6): which of two writes to VF survives. -/
inductive VfWriteOrder where
  | asWritten
  | flagLast
  | resultLast
  deriving DecidableEq, Repr

/-- MEM_SIZE (R5). -/
def Config.memSize : Nat := 4096

/-- PROG_BASE (R5): where LOAD puts the image, and PC at reset. -/
def Config.progBase : Nat := 0x200

/-- STACK_CAP (R5, R17). -/
def Config.stackCap : Nat := 24

/-- GLYPH_BYTES (R5): the multiplier of font-char-address. -/
def Config.glyphBytes : Nat := 5

/-- SHIFT_SRC is OPEN (R5): no value is chosen. DESIGN CHOICE, safe, log 4. -/
opaque Config.shiftSrc : ShiftSrc

/-- MEM_INCREMENT is OPEN (R5): no value is chosen. DESIGN CHOICE, safe, log 5. -/
opaque Config.memIncrement : MemIncrement

/-- VF_WRITE_ORDER as the spec sets it (R5, R126, D6). DESIGN CHOICE, unsafe where x = 15, log 6. -/
def Config.vfWriteOrder : VfWriteOrder := .asWritten

/-- TICK_SOUND as the spec sets it (R5, R206, D9). DESIGN CHOICE, unsafe for the sound counter, log 7. -/
def Config.tickSound : Bool := true

/-- What a byte of memory reads as when the memory list has no cell for its address. DESIGN CHOICE, unsafe, log 1:
MEM_INIT is OPEN (R5, D2), and this is only what is left where no list of cells gives it. -/
def Config.unlistedByte : Byte := 0

/-- The free values draw() (R94, D18): the byte of the n-th draw, under no law. DESIGN CHOICE, safe, log 2. -/
opaque Config.draw : Nat → Byte

end Sys2Proof
end

