-- ==== Sys2Proof/Machine/State.lean ====
section
/-!
DEFINITION. The machine's state (spec/10_state.md) as plain data, the reasons a step can stop, and the reset state.
-/

namespace Sys2Proof.Machine

/-- The five fatal conditions (spec/60_exceptions.md R190, R191). Each is the content of FAULT after the step or LOAD
that raised it (R198), and the reason `step` stops with once FAULT holds it (R202, R84). Raising each is the spec's own
effect, and stopping a machine that holds one is safe. The state beside FAULT then is the spec's choice (D11).
DESIGN CHOICE, log 3. -/
inductive Fault where
  /-- Raised by the decoding of a fetched word that is no instruction (R192). Safe. -/
  | unknownOpcode
  /-- Raised by call when the stack holds 24 entries (R193). Safe. -/
  | stackOverflow
  /-- Raised by return when the stack is empty (R194). Safe. -/
  | stackUnderflow
  /-- Raised by fetch, draw, store-bcd, block-store, block-load and LOAD at an address of 4096 or more (R195). Safe. -/
  | outOfRangeAccess
  /-- Raised at the end of a step by the anti-hang guard (R196, R88). Safe. -/
  | stalledProgramCounter
  deriving DecidableEq, Repr

/-- Why an instruction has no meaning. -/
inductive Refusal where
  /-- Answered only by an arm of `exec` for an instruction without a meaning; safe. No arm is one now. -/
  | notModelled (mnemonic : String)
  deriving DecidableEq, Repr

/-- The display's cells: 32 rows (FB_H) of 64 columns (FB_W), row first; true is 1 (R5, R23). -/
abbrev Framebuffer := Vector (Vector Bool 64) 32

/-- Memory as a list of address and byte pairs in the canonical form of `Memory.wf` (Sys2Proof/Machine/Memory.lean). -/
abbrev Memory := List Host.Cell

/-- All the state of spec/10_state.md, and the model's own counter of draws. -/
structure State where
  /-- V0 to VF (R10). -/
  v : Vector Byte 16
  /-- The index register I (R13). -/
  idx : Word
  /-- The program counter PC (R14). -/
  pc : Word
  /-- The call stack, bottom first, top last; depth is its length (R17). -/
  stack : List Word
  /-- The delay counter DT (R22). -/
  dt : Byte
  /-- The sound counter ST (R22). -/
  st : Byte
  /-- The display FB (R23). -/
  fb : Framebuffer
  /-- The input latch KEY (R24). -/
  key : Option Nibble
  /-- The fault status FAULT (R25). -/
  fault : Option Fault
  /-- Memory MEM (R26, R40). -/
  mem : Memory
  /-- The model's own: how many random bytes were drawn (R94). DESIGN CHOICE, safe, log 2. -/
  draws : Nat
  deriving DecidableEq, Repr

/-- The display with every cell 0 (R30, R161). -/
def Framebuffer.clear : Framebuffer := Vector.replicate _ (Vector.replicate _ false)

/-- The reset state of R30 and R220, memory holding `init` (MEM_INIT of R5, D2). -/
def State.resetWith (init : Memory) : State where
  v := Vector.replicate 16 0
  idx := 0
  pc := 0x0200
  stack := []
  dt := 0
  st := 0
  fb := Framebuffer.clear
  key := none
  fault := none
  mem := init
  draws := 0

/-- The machine right after reset, nothing listed in memory (R30, R220). DESIGN CHOICE, unsafe, log 1. -/
def State.reset : State := State.resetWith []

end Sys2Proof.Machine
end

