-- ==== Sys2Proof/Machine/Memory.lean ====
section
/-!
DEFINITION. The byte store behind the bus (spec/20_memory.md R40, R47): its canonical form, reading and writing one
byte. No range is checked here; the bus operations of Sys2Proof/Machine/Ops.lean do that.
-/

namespace Sys2Proof.Machine

/-- The form, from an address on: addresses rise strictly and are below 4096, and no cell holds what an unlisted
address reads as. -/
def Memory.wfFrom : Nat → Memory → Bool
  | _, [] => true
  | lo, (a, b) :: m => decide (lo ≤ a) && decide (a < Config.memSize) && decide (b ≠ Config.unlistedByte) &&
      Memory.wfFrom (a + 1) m

/-- Memory is in its canonical form, so that equal memories are equal lists. -/
def Memory.wf (m : Memory) : Bool := Memory.wfFrom 0 m

/-- The byte at an address. -/
def Memory.get (a : Nat) : Memory → Byte
  | [] => Config.unlistedByte
  | (a', b) :: m => if a' = a then b else Memory.get a m

/-- Put a cell in its place, instead of the one its address had. -/
def Memory.insert (a : Nat) (b : Byte) : Memory → Memory
  | [] => [(a, b)]
  | (a', b') :: m =>
    if a < a' then (a, b) :: (a', b') :: m
    else if a = a' then (a, b) :: m
    else (a', b') :: Memory.insert a b m

/-- Memory with one byte stored; storing what an unlisted address reads as removes the cell. -/
def Memory.set (a : Nat) (b : Byte) (m : Memory) : Memory :=
  if b = Config.unlistedByte then m.filter fun c => c.1 ≠ a else Memory.insert a b m

end Sys2Proof.Machine
end

