-- ==== Sys2Proof/Machine/Ops.lean ====
section
/-!
DEFINITION. The named operations over registers, the bus, the call stack and FAULT that the meanings are made of
(spec/00_scope.md R7, 10_state.md, 20_memory.md R41, R42, 60_exceptions.md R198). A meaning reads its operands from the
state it is given, before any write (R91).
-/

namespace Sys2Proof.Machine

/-- What a step or a meaning answers. -/
abbrev Result := Host.Outcome State Fault Refusal

/-! ### Faults -/

/-- Fault entry (R198): FAULT takes the cause and nothing else changes, in the state the step began with. Only the
cause is recorded (R204), control goes nowhere (R199), and there is no return from a fault (R200): only RESET leaves
it (Sys2Proof/Machine/Events.lean). DESIGN CHOICE, log 3: unsafe for claims about the rest of a faulted state. -/
def raise (f : Fault) (s : State) : Result := .next { s with fault := some f }

/-- End of an instruction begun in `s`: its result when it completed, else fault entry with all its writes discarded
(R84, R198). -/
def commit (s : State) : Except Fault State → Result
  | .ok t => .next t
  | .error f => raise f s

/-! ### Registers -/

/-- V[x] (R7, R10). -/
def State.getV (s : State) (x : Nibble) : Byte := s.v[x.toNat]'x.isLt

/-- V[x] <- b (R7, R10). -/
def State.setV (s : State) (x : Nibble) (b : Byte) : State := { s with v := s.v.set x.toNat b x.isLt }

/-- The index of VF, register 15 (R12). -/
def vfIndex : Nibble := 15#4

/-- PC <- pc0 + k in the state the instruction began with (R15, R87); reduced to 16 bits, which never shows (R16). -/
def State.advance (s : State) (k : Word) : State := { s with pc := s.pc + k }

/-- The default PC, pc0 + 2 (R87). -/
def State.nextInstr (s : State) : State := s.advance 2#16

/-- A skip: PC <- pc0 + 4 when the condition holds, else pc0 + 2 (R15). -/
def State.skipIf (s : State) (c : Bool) : State := s.advance (if c then 4#16 else 2#16)

/-! ### The bus -/

/-- MemRead(addr, 1) of R41. The address is an unbounded integer and never wraps (R53). -/
def memRead (s : State) (a : Nat) : Except Fault Byte :=
  if Config.memSize ≤ a then .error .outOfRangeAccess else .ok (Memory.get a s.mem)

/-- MemWrite(addr, 1, b) of R42: every address below 4096 is writable. -/
def memWrite (s : State) (a : Nat) (b : Byte) : Except Fault State :=
  if Config.memSize ≤ a then .error .outOfRangeAccess else .ok { s with mem := Memory.set a b s.mem }

/-- Read `n` bytes at ascending addresses from `a` (R54). -/
def readBytes (s : State) (a : Nat) : Nat → Except Fault (List Byte)
  | 0 => .ok []
  | n + 1 =>
    match memRead s a with
    | .error f => .error f
    | .ok b =>
      match readBytes s (a + 1) n with
      | .error f => .error f
      | .ok bs => .ok (b :: bs)

/-- Write bytes at ascending addresses from `a` (R54). -/
def writeBytes (s : State) (a : Nat) : List Byte → Except Fault State
  | [] => .ok s
  | b :: bs =>
    match memWrite s a b with
    | .error f => .error f
    | .ok t => writeBytes t (a + 1) bs

/-! ### The call stack -/

/-- Push(a) of R20: the new entry is the last, and a full stack raises StackOverflow. -/
def push (s : State) (a : Word) : Except Fault State :=
  if Config.stackCap ≤ s.stack.length then .error .stackOverflow else .ok { s with stack := s.stack ++ [a] }

/-- Pop() of R21: the last entry, and the state without it. -/
def pop (s : State) : Except Fault (Word × State) :=
  match s.stack.getLast? with
  | none => .error .stackUnderflow
  | some a => .ok (a, { s with stack := s.stack.dropLast })

end Sys2Proof.Machine
end

