-- ==== Sys2Proof/Machine/Cycle.lean ====
section
/-!
DEFINITION. The step's frame around an instruction (spec/40_step_and_host_events.md R84 to R88): fetch, decode, the
anti-hang guard, and the dead machine. `Sys2Proof/Machine/Step.lean` applies it to `exec`.
-/

namespace Sys2Proof.Machine

/-- Fetch(pc0) of R85: two bus reads, big-endian (R43), at any parity of PC (R45). -/
def fetchWord (s : State) : Except Fault Word :=
  match memRead s s.pc.toNat with
  | .error f => .error f
  | .ok hi =>
    match memRead s (s.pc.toNat + 1) with
    | .error f => .error f
    | .ok lo => .ok (wordOfBytes hi lo)

/-- Fetch and decode: a word that is no instruction raises UnknownOpcode (R84, R192), after any fault of the fetch
(R197). -/
def fetchInstr (s : State) : Except Fault Instr :=
  match fetchWord s with
  | .error f => .error f
  | .ok w =>
    match decodeWord w with
    | .error _ => .error .unknownOpcode
    | .ok i => .ok i

/-- The instruction the anti-hang guard spares: await-key alone (R88, R196). -/
def sparedByGuard : Instr → Bool
  | .awaitKey _ => true
  | _ => false

/-- The anti-hang guard at the end of a step begun in `s` (R88): an instruction other than await-key that completed
with PC where it was raises StalledProgramCounter, and all it wrote is discarded (R198). A fault raised before stays
as it is (R197). -/
def stallGuard (i : Instr) (s : State) : Result → Result
  | .next t =>
    if t.fault = none ∧ t.pc = s.pc ∧ sparedByGuard i = false then raise .stalledProgramCounter s else .next t
  | .fault f => .fault f
  | .refused r => .refused r

/-- STEP of R84, for a given Execute. A machine whose FAULT is set changes nothing and stops with that cause (R202). -/
def cycle (execute : Instr → State → Result) (s : State) : Result :=
  match s.fault with
  | some f => .fault f
  | none =>
    match fetchInstr s with
    | .error f => raise f s
    | .ok i => stallGuard i s (execute i s)

/-- Bytes stored at ascending addresses with no range check; used only to place an instruction. -/
def placeBytes (m : Memory) (a : Nat) : List Byte → Memory
  | [] => m
  | b :: bs => placeBytes (if a < Config.memSize then Memory.set a b m else m) (a + 1) bs

/-- The instruction word with bits `w` placed at PC, its first byte the bits 15:8 (R43, R85). -/
def placeWord (s : State) (nbits w : Nat) : State :=
  { s with mem := placeBytes s.mem s.pc.toNat (wordBytes (tableWord nbits w)) }

/-- The outcome of STEP (R89). -/
inductive StepOutcome where
  /-- The instruction completed and PC changed. -/
  | ok
  /-- The instruction was await-key with the latch empty. -/
  | awaiting
  /-- The step raised the cause, or FAULT held it already. -/
  | fault (f : Fault)
  deriving DecidableEq, Repr

/-- R89 read off what a step from `s` answered; `none` only for a refusal, which no instruction answers. A completed
step that left PC where it was is a waiting await-key, since the guard makes every other such step a fault. -/
def outcomeOf (s : State) : Result → Option StepOutcome
  | .fault f => some (.fault f)
  | .refused _ => none
  | .next t =>
    match t.fault with
    | some f => some (.fault f)
    | none => some (if t.pc = s.pc then .awaiting else .ok)

end Sys2Proof.Machine
end

