-- ==== Sys2Proof/Machine/Flags.lean ====
section
/-!
DEFINITION. The flag values and the double write to Vx and VF (spec/10_state.md R12, 42_alu.md R126 to R133).
-/

namespace Sys2Proof.Machine

/-- A flag as VF receives it: 0x00 or 0x01, all 8 bits (R12). -/
def flagByte (c : Bool) : Byte := if c then 1 else 0

/-- The carry of a + b: whether the exact sum passes 255 (R127). -/
def carryOut (a b : Byte) : Bool := 255 < a.toNat + b.toNat

/-- No borrow in a - b: whether a is at least b (R128, R130). -/
def noBorrow (a b : Byte) : Bool := b.toNat ≤ a.toNat

/-- The bit a right shift moves out: s[0] (R129). -/
def lowBit (b : Byte) : Bool := b.getLsbD 0

/-- The bit a left shift moves out: s[7] (R131). -/
def highBit (b : Byte) : Bool := b.getLsbD 7

/-- The result to Vx, then the flag to VF. -/
def resultThenFlag (s : State) (x : Nibble) (r : Byte) (f : Bool) : State :=
  (s.setV x r).setV vfIndex (flagByte f)

/-- The flag to VF, then the result to Vx. -/
def flagThenResult (s : State) (x : Nibble) (r : Byte) (f : Bool) : State :=
  (s.setV vfIndex (flagByte f)).setV x r

/-- The two writes of add-reg, sub-reg and sub-reg-rev, whose rows write the result first (R126). -/
def writeArith (ord : VfWriteOrder) (s : State) (x : Nibble) (r : Byte) (f : Bool) : State :=
  match ord with
  | .asWritten => resultThenFlag s x r f
  | .flagLast => resultThenFlag s x r f
  | .resultLast => flagThenResult s x r f

/-- The two writes of shift-right and shift-left, whose rows write the flag first (R126). -/
def writeShift (ord : VfWriteOrder) (s : State) (x : Nibble) (r : Byte) (f : Bool) : State :=
  match ord with
  | .asWritten => flagThenResult s x r f
  | .flagLast => resultThenFlag s x r f
  | .resultLast => flagThenResult s x r f

end Sys2Proof.Machine
end

