-- ==== Sys2Proof/Machine/Operands.lean ====
section
/-!
DEFINITION. The operand forms of the instructions (spec/30_encoding.md R62, R63, and the rule of each instruction).
No immediate is sign-extended (R63).
-/

namespace Sys2Proof.Machine

/-- nnn as an address: zext_16(nnn) (R63). -/
def addrOf (nnn : Addr12) : Word := nnn.setWidth 16

/-- A byte as a 16-bit value: zext_16 (R7). -/
def byteToWord (b : Byte) : Word := b.setWidth 16

/-- A key code as a byte: zext_8 (R171, R175). -/
def keyToByte (k : Nibble) : Byte := k.setWidth 8

/-- The address of byte j at I, an unbounded integer (R53, R54). -/
def dataAddr (s : State) (j : Nat) : Nat := s.idx.toNat + j

/-- The source of a shift, Vx or Vy by SHIFT_SRC, from the two values read at the start (R129, R131). -/
def shiftSource (src : ShiftSrc) (a b : Byte) : Byte :=
  match src with
  | .vx => a
  | .vy => b

/-- How many registers block-store and block-load move: V0 to Vx inclusive (R146, R147). -/
def blockLength (x : Nibble) : Nat := x.toNat + 1

/-- The values of `n` registers from register `j` on, ascending (R146). -/
def registersFrom (s : State) (j : Nat) : Nat → List Byte
  | 0 => []
  | n + 1 => s.getV (BitVec.ofNat 4 j) :: registersFrom s (j + 1) n

/-- Bytes put into the registers from register `j` on, ascending (R147). -/
def setRegistersFrom (s : State) (j : Nat) : List Byte → State
  | [] => s
  | b :: bs => setRegistersFrom (s.setV (BitVec.ofNat 4 j) b) (j + 1) bs

/-- I after a block transfer of V0 to Vx, by MEM_INCREMENT (R148). -/
def indexAfterBlock (inc : MemIncrement) (i0 : Word) (x : Nibble) : Word :=
  match inc with
  | .none => i0
  | .xPlus1 => BitVec.ofNat 16 (i0.toNat + x.toNat + 1)

/-- The three decimal digits of a byte, hundreds first (R144). -/
def bcdDigits (a : Byte) : List Byte := [a / 100, a / 10 % 10, a % 10]

/-- IsPressed(b) of R171: all 8 bits compared with the latched code (D15). -/
def isPressed (s : State) (b : Byte) : Bool :=
  match s.key with
  | none => false
  | some k => keyToByte k == b

end Sys2Proof.Machine
end

