-- ==== Sys2Proof/Machine/Alu.lean ====
section
/-!
DEFINITION. The meanings of spec/42_alu.md. All leave PC at the default, and none can raise a fault (R119). A meaning
that rests on a parameter is written once with the parameter as an argument.
-/

namespace Sys2Proof.Machine

/-- set-imm Vx, kk (R120). -/
def execSetImm (x : Nibble) (kk : Byte) (s : State) : Result :=
  commit s (.ok (s.setV x kk).nextInstr)

/-- add-imm Vx, kk (R121): no flag. -/
def execAddImm (x : Nibble) (kk : Byte) (s : State) : Result :=
  commit s (.ok (s.setV x (s.getV x + kk)).nextInstr)

/-- move Vx, Vy (R122). -/
def execMove (x y : Nibble) (s : State) : Result :=
  commit s (.ok (s.setV x (s.getV y)).nextInstr)

/-- or Vx, Vy (R123): VF is not written (D29). -/
def execOr (x y : Nibble) (s : State) : Result :=
  commit s (.ok (s.setV x (s.getV x ||| s.getV y)).nextInstr)

/-- and Vx, Vy (R124): VF is not written (D29). -/
def execAnd (x y : Nibble) (s : State) : Result :=
  commit s (.ok (s.setV x (s.getV x &&& s.getV y)).nextInstr)

/-- xor Vx, Vy (R125): VF is not written (D29). -/
def execXor (x y : Nibble) (s : State) : Result :=
  commit s (.ok (s.setV x (s.getV x ^^^ s.getV y)).nextInstr)

/-- add-reg (R127) under a given VF_WRITE_ORDER. -/
def addRegWith (ord : VfWriteOrder) (x y : Nibble) (s : State) : State :=
  let a := s.getV x
  let b := s.getV y
  (writeArith ord s x (a + b) (carryOut a b)).nextInstr

/-- add-reg Vx, Vy (R127). -/
def execAddReg (x y : Nibble) (s : State) : Result :=
  commit s (.ok (addRegWith Config.vfWriteOrder x y s))

/-- sub-reg (R128) under a given VF_WRITE_ORDER. -/
def subRegWith (ord : VfWriteOrder) (x y : Nibble) (s : State) : State :=
  let a := s.getV x
  let b := s.getV y
  (writeArith ord s x (a - b) (noBorrow a b)).nextInstr

/-- sub-reg Vx, Vy (R128). -/
def execSubReg (x y : Nibble) (s : State) : Result :=
  commit s (.ok (subRegWith Config.vfWriteOrder x y s))

/-- shift-right (R129) under a given VF_WRITE_ORDER and SHIFT_SRC. -/
def shiftRightWith (ord : VfWriteOrder) (src : ShiftSrc) (x y : Nibble) (s : State) : State :=
  let b := shiftSource src (s.getV x) (s.getV y)
  (writeShift ord s x (b >>> 1) (lowBit b)).nextInstr

/-- shift-right Vx, Vy (R129). -/
def execShiftRight (x y : Nibble) (s : State) : Result :=
  commit s (.ok (shiftRightWith Config.vfWriteOrder Config.shiftSrc x y s))

/-- sub-reg-rev (R130) under a given VF_WRITE_ORDER. -/
def subRegRevWith (ord : VfWriteOrder) (x y : Nibble) (s : State) : State :=
  let a := s.getV x
  let b := s.getV y
  (writeArith ord s x (b - a) (noBorrow b a)).nextInstr

/-- sub-reg-rev Vx, Vy (R130). -/
def execSubRegRev (x y : Nibble) (s : State) : Result :=
  commit s (.ok (subRegRevWith Config.vfWriteOrder x y s))

/-- shift-left (R131) under a given VF_WRITE_ORDER and SHIFT_SRC. -/
def shiftLeftWith (ord : VfWriteOrder) (src : ShiftSrc) (x y : Nibble) (s : State) : State :=
  let b := shiftSource src (s.getV x) (s.getV y)
  (writeShift ord s x (b <<< 1) (highBit b)).nextInstr

/-- shift-left Vx, Vy (R131). -/
def execShiftLeft (x y : Nibble) (s : State) : Result :=
  commit s (.ok (shiftLeftWith Config.vfWriteOrder Config.shiftSrc x y s))

/-- random (R132) with the byte `r` drawn. -/
def randomWith (r : Byte) (x : Nibble) (kk : Byte) (s : State) : State :=
  (State.setV { s with draws := s.draws + 1 } x (r &&& kk)).nextInstr

/-- random Vx, kk (R132): the byte is the free value of this draw (R94, log 2). -/
def execRandom (x : Nibble) (kk : Byte) (s : State) : Result :=
  commit s (.ok (randomWith (Config.draw s.draws) x kk s))

end Sys2Proof.Machine
end

