-- ==== Sys2Proof/Machine/ControlFlow.lean ====
section
/-!
DEFINITION. The meanings of spec/41_control_flow.md. The anti-hang guard is not here: the step applies it after the
instruction (spec/40_step_and_host_events.md R84, R88; Sys2Proof/Machine/Cycle.lean).
-/

namespace Sys2Proof.Machine

/-- return (R101): PC takes the popped address, with no further + 2. -/
def execRet (s : State) : Result :=
  commit s <|
    match pop s with
    | .error f => .error f
    | .ok (a, t) => .ok { t with pc := a }

/-- jump nnn (R102). -/
def execJump (nnn : Addr12) (s : State) : Result :=
  commit s (.ok { s with pc := addrOf nnn })

/-- call nnn (R103): pushes pc0 + 2. -/
def execCall (nnn : Addr12) (s : State) : Result :=
  commit s <|
    match push s (s.pc + 2#16) with
    | .error f => .error f
    | .ok t => .ok { t with pc := addrOf nnn }

/-- skip-eq-imm Vx, kk (R104). -/
def execSkipEqImm (x : Nibble) (kk : Byte) (s : State) : Result :=
  commit s (.ok (s.skipIf (s.getV x == kk)))

/-- skip-ne-imm Vx, kk (R105). -/
def execSkipNeImm (x : Nibble) (kk : Byte) (s : State) : Result :=
  commit s (.ok (s.skipIf (s.getV x != kk)))

/-- skip-eq-reg Vx, Vy (R106). -/
def execSkipEqReg (x y : Nibble) (s : State) : Result :=
  commit s (.ok (s.skipIf (s.getV x == s.getV y)))

/-- skip-ne-reg Vx, Vy (R107). -/
def execSkipNeReg (x y : Nibble) (s : State) : Result :=
  commit s (.ok (s.skipIf (s.getV x != s.getV y)))

/-- jump-offset nnn (R108): the sum is not reduced to 12 bits (D17). -/
def execJumpOffset (nnn : Addr12) (s : State) : Result :=
  commit s (.ok { s with pc := addrOf nnn + byteToWord (s.getV 0#4) })

end Sys2Proof.Machine
end

