-- ==== Sys2Proof/Machine/Display.lean ====
section
/-!
DEFINITION. The display's blitter and the meanings of spec/44_display.md.
-/

namespace Sys2Proof.Machine

/-- FB[r][c] for a row and a column in range (R23). -/
def Framebuffer.cell (f : Framebuffer) (r : Fin 32) (c : Fin 64) : Bool := f[r][c]

/-- FB[r][c] <- b. -/
def Framebuffer.setCell (f : Framebuffer) (r : Fin 32) (c : Fin 64) (b : Bool) : Framebuffer :=
  f.set r (f[r].set c b)

/-- A row coordinate wraps modulo 32 (R23, R162). -/
def wrapRow (y : Nat) : Fin 32 := Fin.ofNat _ y

/-- A column coordinate wraps modulo 64 (R23, R162). -/
def wrapCol (x : Nat) : Fin 64 := Fin.ofNat _ x

/-- One pixel of the blitter (R162): the cell becomes old XOR bit, and a cell that was 1 under a 1 bit is a
collision. -/
def drawPixel (bit : Bool) (x y : Nat) (acc : Framebuffer × Bool) : Framebuffer × Bool :=
  let old := acc.1.cell (wrapRow y) (wrapCol x)
  (acc.1.setCell (wrapRow y) (wrapCol x) (old ^^ bit), acc.2 || (old && bit))

/-- The eight pixels of a sprite row, most significant bit first: pixel b takes bit 7 - b (R162). -/
def drawByte (row : Byte) (x0 y : Nat) (acc : Framebuffer × Bool) : Framebuffer × Bool :=
  [0, 1, 2, 3, 4, 5, 6, 7].foldl (fun acc b => drawPixel (row.getLsbD (7 - b)) (x0 + b) y acc) acc

/-- The rows of a sprite from row coordinate `y` down (R162). -/
def drawRows (x0 : Nat) : Nat → List Byte → Framebuffer × Bool → Framebuffer × Bool
  | _, [], acc => acc
  | y, row :: rows, acc => drawRows x0 (y + 1) rows (drawByte row x0 y acc)

/-- DrawSprite(rows, x0, y0, h) of R162, h being the number of rows: the new cells, and whether any cell went from
set to clear. -/
def drawSprite (rows : List Byte) (x0 y0 : Nat) (f : Framebuffer) : Framebuffer × Bool :=
  drawRows x0 y0 rows (f, false)

/-- clear-screen (R161): VF is not written. -/
def execClearScreen (s : State) : Result :=
  commit s (.ok (State.nextInstr { s with fb := Framebuffer.clear }))

/-- draw Vx, Vy, n (R163): column from Vx, row from Vy (D5), both read before VF is written (R91). PRESUMED (by the
spec), unsafe, log 12. -/
def execDraw (x y n : Nibble) (s : State) : Result :=
  commit s <|
    match readBytes s (dataAddr s 0) n.toNat with
    | .error f => .error f
    | .ok rows =>
      let d := drawSprite rows (s.getV x).toNat (s.getV y).toNat s.fb
      .ok (State.setV { s with fb := d.1 } vfIndex (flagByte d.2)).nextInstr

end Sys2Proof.Machine
end

