-- ==== Sys2Proof/Machine/IndexMemory.lean ====
section
/-!
DEFINITION. The meanings of spec/43_index_memory.md. When an access is out of range the instruction raises
OutOfRangeAccess and none of its writes takes effect (R140, R198).
-/

namespace Sys2Proof.Machine

/-- set-index nnn (R141). -/
def execSetIndex (nnn : Addr12) (s : State) : Result :=
  commit s (.ok (State.nextInstr { s with idx := addrOf nnn }))

/-- add-to-index Vx (R142): modulo 65536 (D14), and no flag (D29). -/
def execAddToIndex (x : Nibble) (s : State) : Result :=
  commit s (.ok (State.nextInstr { s with idx := s.idx + byteToWord (s.getV x) }))

/-- font-char-address Vx (R143): all 8 bits of Vx are used (D16). -/
def execFontCharAddress (x : Nibble) (s : State) : Result :=
  commit s (.ok (State.nextInstr { s with idx := BitVec.ofNat 16 ((s.getV x).toNat * Config.glyphBytes) }))

/-- store-bcd Vx (R144): I is not changed. -/
def execStoreBcd (x : Nibble) (s : State) : Result :=
  commit s <|
    match writeBytes s (dataAddr s 0) (bcdDigits (s.getV x)) with
    | .error f => .error f
    | .ok t => .ok t.nextInstr

/-- block-store (R146) under a given MEM_INCREMENT: V0 to Vx at I, I + 1, and so on. -/
def blockStoreWith (inc : MemIncrement) (x : Nibble) (s : State) : Except Fault State :=
  match writeBytes s (dataAddr s 0) (registersFrom s 0 (blockLength x)) with
  | .error f => .error f
  | .ok t => .ok (State.nextInstr { t with idx := indexAfterBlock inc s.idx x })

/-- block-store Vx (R146). -/
def execBlockStore (x : Nibble) (s : State) : Result :=
  commit s (blockStoreWith Config.memIncrement x s)

/-- block-load (R147) under a given MEM_INCREMENT: all bytes are read before a register is written, which cannot be
seen, since the addresses depend on the old I alone (R91, R147). -/
def blockLoadWith (inc : MemIncrement) (x : Nibble) (s : State) : Except Fault State :=
  match readBytes s (dataAddr s 0) (blockLength x) with
  | .error f => .error f
  | .ok bs => .ok (State.nextInstr { setRegistersFrom s 0 bs with idx := indexAfterBlock inc s.idx x })

/-- block-load Vx (R147). -/
def execBlockLoad (x : Nibble) (s : State) : Result :=
  commit s (blockLoadWith Config.memIncrement x s)

end Sys2Proof.Machine
end

