-- ==== Sys2Proof/Machine/InputTimers.lean ====
section
/-!
DEFINITION. The meanings of spec/45_input_timers.md. None raises a fault of its own (R170).
-/

namespace Sys2Proof.Machine

/-- skip-if-key Vx (R172). -/
def execSkipIfKey (x : Nibble) (s : State) : Result :=
  commit s (.ok (s.skipIf (isPressed s (s.getV x))))

/-- skip-if-not-key Vx (R173). -/
def execSkipIfNotKey (x : Nibble) (s : State) : Result :=
  commit s (.ok (s.skipIf (!isPressed s (s.getV x))))

/-- read-delay-timer Vx (R174). -/
def execReadDelayTimer (x : Nibble) (s : State) : Result :=
  commit s (.ok (s.setV x s.dt).nextInstr)

/-- await-key Vx (R175): with the latch empty nothing changes, PC included; the latch is never cleared (D28). -/
def execAwaitKey (x : Nibble) (s : State) : Result :=
  commit s <|
    match s.key with
    | none => .ok s
    | some k => .ok (s.setV x (keyToByte k)).nextInstr

/-- set-delay-timer Vx (R176). -/
def execSetDelayTimer (x : Nibble) (s : State) : Result :=
  commit s (.ok (State.nextInstr { s with dt := s.getV x }))

/-- set-sound-timer Vx (R177). -/
def execSetSoundTimer (x : Nibble) (s : State) : Result :=
  commit s (.ok (State.nextInstr { s with st := s.getV x }))

end Sys2Proof.Machine
end

