-- ==== Sys2Proof/Machine/Step.lean ====
section
/-!
DEFINITION. STEP (spec/40_step_and_host_events.md R84): the cycle of Sys2Proof/Machine/Cycle.lean around `exec`.
-/

namespace Sys2Proof.Machine

/-- One STEP event. -/
def step (s : State) : Host.Outcome State Fault Refusal := cycle exec s

/-- The outcome STEP reports to the host (R89). -/
def stepOutcome (s : State) : Option StepOutcome := outcomeOf s (step s)

/-- The state with an instruction stored where STEP fetches next, that is at PC; nothing else changes. It stands for
the host's LOAD of a program (R90). DEDUCED, safe, log 11. -/
def State.withFetchWord (s : State) (nbits w : Nat) : State := placeWord s nbits w

end Sys2Proof.Machine
end

