-- ==== Sys2Proof/Machine/Events.lean ====
section
/-!
DEFINITION. The host's events other than STEP, and the outputs (spec/40_step_and_host_events.md R80 to R96,
60_exceptions.md R202, R206, 70_reset_and_hazards.md R220). Each is one atomic transition (R81).
-/

namespace Sys2Proof.Machine

/-- A counter one lower, with floor 0 (R206). -/
def countDown (b : Byte) : Byte := if b = 0 then 0 else b - 1

/-- TICK (R206) under a given TICK_SOUND. -/
def tickWith (sound : Bool) (s : State) : State :=
  match s.fault with
  | some _ => s
  | none => { s with dt := countDown s.dt, st := if sound then countDown s.st else s.st }

/-- TICK (R206). -/
def tick (s : State) : State := tickWith Config.tickSound s

/-- KEY(k) (R92): overwrites the latch. -/
def keyEvent (k : Option Nibble) (s : State) : State :=
  match s.fault with
  | some _ => s
  | none => { s with key := k }

/-- LOAD(img) (R90): an image that runs past 0xFFF writes nothing and latches OutOfRangeAccess (D26). That no LOAD comes
after the first STEP is the schedule's matter: DEDUCED, safe, log 10. -/
def load (img : List Byte) (s : State) : State :=
  match s.fault with
  | some _ => s
  | none =>
    match writeBytes s Config.progBase img with
    | .ok t => t
    | .error f => { s with fault := some f }

/-- RESET (R220), accepted in every state; memory becomes MEM_INIT, here `init`. The draws already made stay counted,
so that later draws are fresh (R94; log 2). -/
def resetEvent (init : Memory) (s : State) : State := { State.resetWith init with draws := s.draws }

/-- The events that change the state between steps (R80, R81). -/
inductive HostEvent where
  | reset (init : Memory)
  | load (img : List Byte)
  | tick
  | key (k : Option Nibble)
  deriving DecidableEq, Repr

/-- What a host event does. -/
def applyEvent : HostEvent → State → State
  | .reset init, s => resetEvent init s
  | .load img, s => load img s
  | .tick, s => tick s
  | .key k, s => keyEvent k s

/-- The outputs the host may read between events (R80, R95, R96, R191). -/
structure Outputs where
  fb : Framebuffer
  delay : Byte
  sound : Byte
  fault : Option Fault
  deriving DecidableEq, Repr

/-- The outputs of a state. -/
def State.outputs (s : State) : Outputs := ⟨s.fb, s.dt, s.st, s.fault⟩

/-- The cause code of FAULT, a 3-bit number (R29, R191, D12). -/
def faultCode : Option Fault → BitVec 3
  | none => 0
  | some .unknownOpcode => 1
  | some .stackOverflow => 2
  | some .stackUnderflow => 3
  | some .outOfRangeAccess => 4
  | some .stalledProgramCounter => 5

end Sys2Proof.Machine
end

