-- ==== Sys2Proof/WellFormed.lean ====
section
/-!
DEFINITION. What is a well-formed instruction: the opcode map of spec/30_encoding.md R64 as a table, and the words it
defines. Every term of `Instr` is well-formed, since its operands are bit vectors of the exact width of their field
(R62, R63: all values are legal), so what can be ill-formed is a word: one that matches no row (R66).
The patterns are the map the spec adopts (D3). PRESUMED, unsafe, log 8.
-/

namespace Sys2Proof

/-- A row of R64: the instruction's name, and the bits a word has where the mask has ones. -/
structure OpcodeRow where
  mnemonic : String
  bits : Word
  mask : Word
  deriving DecidableEq, Repr

/-- "a word w is the instruction when w & mask = match" (R64). -/
def OpcodeRow.matches (r : OpcodeRow) (w : Word) : Bool := w &&& r.mask == r.bits

/-- Rows 1 to 12 of R64. -/
def opcodeRows1 : List OpcodeRow :=
  [ ⟨"clear-screen", 0x00E0, 0xFFFF⟩,
    ⟨"return", 0x00EE, 0xFFFF⟩,
    ⟨"jump", 0x1000, 0xF000⟩,
    ⟨"call", 0x2000, 0xF000⟩,
    ⟨"skip-eq-imm", 0x3000, 0xF000⟩,
    ⟨"skip-ne-imm", 0x4000, 0xF000⟩,
    ⟨"skip-eq-reg", 0x5000, 0xF00F⟩,
    ⟨"set-imm", 0x6000, 0xF000⟩,
    ⟨"add-imm", 0x7000, 0xF000⟩,
    ⟨"move", 0x8000, 0xF00F⟩,
    ⟨"or", 0x8001, 0xF00F⟩,
    ⟨"and", 0x8002, 0xF00F⟩ ]

/-- Rows 13 to 24 of R64. -/
def opcodeRows2 : List OpcodeRow :=
  [ ⟨"xor", 0x8003, 0xF00F⟩,
    ⟨"add-reg", 0x8004, 0xF00F⟩,
    ⟨"sub-reg", 0x8005, 0xF00F⟩,
    ⟨"shift-right", 0x8006, 0xF00F⟩,
    ⟨"sub-reg-rev", 0x8007, 0xF00F⟩,
    ⟨"shift-left", 0x800E, 0xF00F⟩,
    ⟨"skip-ne-reg", 0x9000, 0xF00F⟩,
    ⟨"set-index", 0xA000, 0xF000⟩,
    ⟨"jump-offset", 0xB000, 0xF000⟩,
    ⟨"random", 0xC000, 0xF000⟩,
    ⟨"draw", 0xD000, 0xF000⟩,
    ⟨"skip-if-key", 0xE09E, 0xF0FF⟩ ]

/-- Rows 25 to 34 of R64. -/
def opcodeRows3 : List OpcodeRow :=
  [ ⟨"skip-if-not-key", 0xE0A1, 0xF0FF⟩,
    ⟨"read-delay-timer", 0xF007, 0xF0FF⟩,
    ⟨"await-key", 0xF00A, 0xF0FF⟩,
    ⟨"set-delay-timer", 0xF015, 0xF0FF⟩,
    ⟨"set-sound-timer", 0xF018, 0xF0FF⟩,
    ⟨"add-to-index", 0xF01E, 0xF0FF⟩,
    ⟨"font-char-address", 0xF029, 0xF0FF⟩,
    ⟨"store-bcd", 0xF033, 0xF0FF⟩,
    ⟨"block-store", 0xF055, 0xF0FF⟩,
    ⟨"block-load", 0xF065, 0xF0FF⟩ ]

/-- The 34 rows of R64. -/
def opcodeMap : List OpcodeRow := opcodeRows1 ++ opcodeRows2 ++ opcodeRows3

/-- The words that are some instruction: those that match a row (R64); every other word is unknown (R66). -/
def wordDefined (w : Word) : Bool := opcodeMap.any fun r => r.matches w

/-- The instruction's name in R64. -/
def Instr.mnemonic : Instr → String
  | .clearScreen => "clear-screen"
  | .ret => "return"
  | .jump _ => "jump"
  | .call _ => "call"
  | .skipEqImm _ _ => "skip-eq-imm"
  | .skipNeImm _ _ => "skip-ne-imm"
  | .skipEqReg _ _ => "skip-eq-reg"
  | .setImm _ _ => "set-imm"
  | .addImm _ _ => "add-imm"
  | .move _ _ => "move"
  | .or _ _ => "or"
  | .and _ _ => "and"
  | .xor _ _ => "xor"
  | .addReg _ _ => "add-reg"
  | .subReg _ _ => "sub-reg"
  | .shiftRight _ _ => "shift-right"
  | .subRegRev _ _ => "sub-reg-rev"
  | .shiftLeft _ _ => "shift-left"
  | .skipNeReg _ _ => "skip-ne-reg"
  | .setIndex _ => "set-index"
  | .jumpOffset _ => "jump-offset"
  | .random _ _ => "random"
  | .draw _ _ _ => "draw"
  | .skipIfKey _ => "skip-if-key"
  | .skipIfNotKey _ => "skip-if-not-key"
  | .readDelayTimer _ => "read-delay-timer"
  | .awaitKey _ => "await-key"
  | .setDelayTimer _ => "set-delay-timer"
  | .setSoundTimer _ => "set-sound-timer"
  | .addToIndex _ => "add-to-index"
  | .fontCharAddress _ => "font-char-address"
  | .storeBcd _ => "store-bcd"
  | .blockStore _ => "block-store"
  | .blockLoad _ => "block-load"

end Sys2Proof
end

