-- ==== Sys2Proof/Safety.lean ====
section
/-!
DEFINITION. The terms claims use: what stays the same (frames), the invariant, the states a host's schedule can reach
(spec/40_step_and_host_events.md R83), PC after a completed step (spec/10_state.md R15), what each instruction may write
(R11, R12, R29), and a sprite's wrapped image (spec/44_display.md R164).
-/

namespace Sys2Proof.Machine

/-! ### Frames -/

/-- The parts of the state beside the general registers and PC. -/
inductive Part where
  | idx
  | stack
  | dt
  | st
  | fb
  | key
  | fault
  | mem
  | draws
  deriving DecidableEq, Repr

/-- A part is the same in both states; of memory, every byte reads the same. -/
def SamePart (s t : State) : Part → Prop
  | .idx => t.idx = s.idx
  | .stack => t.stack = s.stack
  | .dt => t.dt = s.dt
  | .st => t.st = s.st
  | .fb => t.fb = s.fb
  | .key => t.key = s.key
  | .fault => t.fault = s.fault
  | .mem => ∀ a, memRead t a = memRead s a
  | .draws => t.draws = s.draws

/-- Every part but those named is the same. -/
def SameExcept (ps : List Part) (s t : State) : Prop := ∀ p, p ∉ ps → SamePart s t p

/-- Every general register but those named is the same. -/
def SameRegsExcept (xs : List Nibble) (s t : State) : Prop := ∀ y, y ∉ xs → t.getV y = s.getV y

/-! ### What each instruction may write -/

/-- The general registers an instruction may write (R11, R12). -/
def regsWritten : Instr → List Nibble
  | .clearScreen | .ret | .jump _ | .call _ | .skipEqImm _ _ | .skipNeImm _ _ | .skipEqReg _ _ | .skipNeReg _ _
  | .setIndex _ | .jumpOffset _ | .skipIfKey _ | .skipIfNotKey _ | .setDelayTimer _ | .setSoundTimer _
  | .addToIndex _ | .fontCharAddress _ | .storeBcd _ | .blockStore _ => []
  | .setImm x _ | .addImm x _ | .move x _ | .or x _ | .and x _ | .xor x _ | .random x _ | .readDelayTimer x
  | .awaitKey x => [x]
  | .addReg x _ | .subReg x _ | .shiftRight x _ | .subRegRev x _ | .shiftLeft x _ => [x, 15#4]
  | .draw _ _ _ => [15#4]
  | .blockLoad x => (List.range (x.toNat + 1)).map (BitVec.ofNat 4)

/-- The other parts an instruction may write, FAULT included where its rule names a fault (R29, R54, R195). -/
def partsWritten : Instr → List Part
  | .skipEqImm _ _ | .skipNeImm _ _ | .skipEqReg _ _ | .skipNeReg _ _ | .jump _ | .jumpOffset _ | .setImm _ _
  | .addImm _ _ | .move _ _ | .or _ _ | .and _ _ | .xor _ _ | .addReg _ _ | .subReg _ _ | .shiftRight _ _
  | .subRegRev _ _ | .shiftLeft _ _ | .skipIfKey _ | .skipIfNotKey _ | .readDelayTimer _ | .awaitKey _ => []
  | .clearScreen => [.fb]
  | .ret | .call _ => [.stack, .fault]
  | .setIndex _ | .addToIndex _ | .fontCharAddress _ => [.idx]
  | .random _ _ => [.draws]
  | .draw _ _ _ => [.fb, .fault]
  | .setDelayTimer _ => [.dt]
  | .setSoundTimer _ => [.st]
  | .storeBcd _ => [.mem, .fault]
  | .blockStore _ => [.mem, .idx, .fault]
  | .blockLoad _ => [.idx, .fault]

/-! ### PC after a completed step -/

/-- PC + 4 when the condition holds, else PC + 2 (R15). -/
def pcSkip (s : State) (c : Bool) : Word := if c then s.pc + 4#16 else s.pc + 2#16

/-- The table of R15, for a step that completes. -/
def pcAfter (i : Instr) (s : State) : Word :=
  match i with
  | .skipEqImm x kk => pcSkip s (s.getV x == kk)
  | .skipNeImm x kk => pcSkip s (s.getV x != kk)
  | .skipEqReg x y => pcSkip s (s.getV x == s.getV y)
  | .skipNeReg x y => pcSkip s (s.getV x != s.getV y)
  | .skipIfKey x => pcSkip s (isPressed s (s.getV x))
  | .skipIfNotKey x => pcSkip s (!isPressed s (s.getV x))
  | .jump nnn | .call nnn => BitVec.ofNat 16 nnn.toNat
  | .jumpOffset nnn => BitVec.ofNat 16 (nnn.toNat + (s.getV 0#4).toNat)
  | .ret => s.stack.getLast?.getD 0#16
  | .awaitKey _ => if s.key = none then s.pc else s.pc + 2#16
  | .clearScreen | .setImm _ _ | .addImm _ _ | .move _ _ | .or _ _ | .and _ _ | .xor _ _ | .addReg _ _ | .subReg _ _
  | .shiftRight _ _ | .subRegRev _ _ | .shiftLeft _ _ | .setIndex _ | .random _ _ | .draw _ _ _ | .readDelayTimer _
  | .setDelayTimer _ | .setSoundTimer _ | .addToIndex _ | .fontCharAddress _ | .storeBcd _ | .blockStore _
  | .blockLoad _ => s.pc + 2#16

/-- The target an instruction loads into PC with a computed value: the four that can stall (R88). -/
def transferTarget (i : Instr) (s : State) : Option Word :=
  match i with
  | .jump nnn | .call nnn => some (BitVec.ofNat 16 nnn.toNat)
  | .jumpOffset nnn => some (BitVec.ofNat 16 (nnn.toNat + (s.getV 0#4).toNat))
  | .ret => s.stack.getLast?
  | .clearScreen | .setImm _ _ | .addImm _ _ | .move _ _ | .or _ _ | .and _ _ | .xor _ _ | .addReg _ _ | .subReg _ _
  | .shiftRight _ _ | .subRegRev _ _ | .shiftLeft _ _ | .setIndex _ | .random _ _ | .draw _ _ _ | .readDelayTimer _
  | .setDelayTimer _ | .setSoundTimer _ | .addToIndex _ | .fontCharAddress _ | .storeBcd _ | .blockStore _
  | .blockLoad _ | .skipEqImm _ _ | .skipNeImm _ _ | .skipEqReg _ _ | .skipNeReg _ _ | .skipIfKey _
  | .skipIfNotKey _ | .awaitKey _ => none

/-- An instruction of its own accesses memory out of range (R195): the rows of its table other than fetch and LOAD. -/
def DataOutOfRange (i : Instr) (s : State) : Prop :=
  (∃ x y n, i = .draw x y n ∧ 1 ≤ n.toNat ∧ 4096 ≤ s.idx.toNat + n.toNat - 1) ∨
  (∃ x, i = .storeBcd x ∧ 4096 ≤ s.idx.toNat + 2) ∨
  (∃ x, (i = .blockStore x ∨ i = .blockLoad x) ∧ 4096 ≤ s.idx.toNat + x.toNat)

/-! ### Invariant and runs -/

/-- What holds in every state a run reaches: memory in its canonical form, at most 24 stack entries (R17, R31), each
a return address of some call, 2 to 0x1000 (R29), and PC at most 0x10FE (R16). -/
abbrev Inv (s : State) : Prop :=
  Memory.wf s.mem = true ∧ s.stack.length ≤ 24 ∧ (∀ a ∈ s.stack, 2 ≤ a.toNat ∧ a.toNat ≤ 0x1000) ∧
    s.pc.toNat ≤ 0x10FE

/-- After RESET of any state, and LOADs (R83, R222). -/
inductive Booted : State → Prop
  | reset (s : State) (init : Memory) : Memory.wf init = true → Booted (resetEvent init s)
  | load (s : State) (img : List Byte) : Booted s → Booted (load img s)

/-- The states of a run by the schedule of R83: any finite number of STEP, TICK and KEY events in any order.
DEDUCED, log 9. -/
inductive Reachable : State → Prop
  | booted (s : State) : Booted s → Reachable s
  | step (s t : State) : Reachable s → step s = .next t → Reachable t
  | tick (s : State) : Reachable s → Reachable (tick s)
  | key (s : State) (k : Option Nibble) : Reachable s → Reachable (keyEvent k s)

/-! ### Sprites -/

/-- The bit of a sprite's wrapped image over the cell at row `r` and column `c`, its corner at row `y0`, column `x0`
(R162, R164): row `(r - y0) mod 32` and bit `(c - x0) mod 64` of the sprite, where it has them. -/
def spriteBit (rows : List Byte) (x0 y0 : Nat) (r : Fin 32) (c : Fin 64) : Bool :=
  let dr := (r.val + 32 - y0 % 32) % 32
  let dc := (c.val + 64 - x0 % 64) % 64
  if dc < 8 then (rows.getD dr 0).getLsbD (7 - dc) else false

/-- Calls executed one after another, as long as none faults. -/
def runCalls : List Addr12 → State → Option State
  | [], s => some s
  | nnn :: rest, s =>
    match exec (.call nnn) s with
    | .next t => if t.fault = none then runCalls rest t else none
    | .fault _ => none
    | .refused _ => none

end Sys2Proof.Machine
end

