-- ==== Sys2Proof/Certificates/Slice0/Obligations.lean ====
section
/-!
DEFINITION. The statements for the provers, from the numbered rules of spec/. A statement about an instruction ends in
the next state its rule gives, with its frame. PC is written as 16-bit addition; the reduction never shows (R16).
-/

open Sys2Proof Sys2Proof.Machine

/-! ### Encoding -/

/-- R64, R61 (the map is the spec's decision D3, log 8): no bit of an operand is lost, and the bytes after the
instruction are left. -/
def Obligations.DecodeEncodeRoundTrip : Prop :=
  ∀ (i : Instr) (rest : List Byte), decode (encodeBytes i ++ rest) = .ok (i, rest)

/-- R67: every bit of a defined word is pattern or operand, so the word can be built again from the instruction. -/
def Obligations.EncodeDecodeRoundTrip : Prop :=
  ∀ (w : Word) (i : Instr), decodeWord w = .ok i → encode i = w

/-- R64, R65: the decoding algorithm and the table of masks say the same of every word. -/
def Obligations.DecodeAgreesWithOpcodeMap : Prop :=
  ∀ w : Word,
    (∀ i, decodeWord w = .ok i → ∃ r ∈ opcodeMap, r.mnemonic = i.mnemonic ∧ w &&& r.mask = r.bits) ∧
    (∀ r ∈ opcodeMap, w &&& r.mask = r.bits → ∃ i, decodeWord w = .ok i ∧ i.mnemonic = r.mnemonic)

/-- R64: "The 34 patterns are pairwise disjoint: no word matches two rows." -/
def Obligations.OpcodeRowsAreDisjoint : Prop :=
  opcodeMap.length = 34 ∧
  ∀ r ∈ opcodeMap, ∀ q ∈ opcodeMap, ∀ w : Word, w &&& r.mask = r.bits → w &&& q.mask = q.bits → r = q

/-- R66: the table of unknown words by top nibble; every other word is some instruction. -/
def Obligations.UnknownWordsByTopNibble : Prop :=
  ∀ w : Word,
    let op := w.toNat / 4096
    let low := w.toNat % 256
    let nib := w.toNat % 16
    let unknown :=
      (op = 0 ∧ w.toNat ≠ 0x00E0 ∧ w.toNat ≠ 0x00EE) ∨
      ((op = 5 ∨ op = 9) ∧ nib ≠ 0) ∨
      (op = 8 ∧ nib ∈ [0x8, 0x9, 0xA, 0xB, 0xC, 0xD, 0xF]) ∨
      (op = 0xE ∧ low ∉ [0x9E, 0xA1]) ∨
      (op = 0xF ∧ low ∉ [0x07, 0x0A, 0x15, 0x18, 0x1E, 0x29, 0x33, 0x55, 0x65])
    (unknown → decodeWord w = .error (.unknownOpcode w)) ∧ (¬unknown → ∃ i, decodeWord w = .ok i)

/-- Words written out from R64, a few of each format, and three that are no instruction. -/
def Obligations.SampleWordsDecode : Prop :=
  decodeWord 0x00E0 = .ok .clearScreen ∧ decodeWord 0x00EE = .ok .ret ∧ decodeWord 0x1ABC = .ok (.jump 0xABC) ∧
  decodeWord 0x3A5C = .ok (.skipEqImm 0xA 0x5C) ∧ decodeWord 0x8AB4 = .ok (.addReg 0xA 0xB) ∧
  decodeWord 0xDAB2 = .ok (.draw 0xA 0xB 2) ∧ decodeWord 0xE49E = .ok (.skipIfKey 4) ∧
  decodeWord 0xF265 = .ok (.blockLoad 2) ∧ decodeWord 0x0000 = .error (.unknownOpcode 0) ∧
  decodeWord 0x5121 = .error (.unknownOpcode 0x5121) ∧ decodeWord 0xF300 = .error (.unknownOpcode 0xF300)

/-! ### The step -/

/-- R84, R88: at a live machine the step runs the instruction its two bytes decode to, and then the guard: an
instruction other than await-key that completed with PC where it was faults instead, all it wrote discarded. -/
def Obligations.StepRunsDecodedInstr : Prop :=
  ∀ (s t : State) (hi lo : Byte) (i : Instr),
    s.fault = none → memRead s s.pc.toNat = .ok hi → memRead s (s.pc.toNat + 1) = .ok lo →
    decode [hi, lo] = .ok (i, []) → exec i s = .next t →
      ((t.fault = none ∧ t.pc = s.pc ∧ ∀ x, i ≠ .awaitKey x) →
        step s = .next { s with fault := some .stalledProgramCounter }) ∧
      (¬(t.fault = none ∧ t.pc = s.pc ∧ ∀ x, i ≠ .awaitKey x) → step s = .next t)

/-- R84, R198: every instruction answers a next state from every state and operand, and so does every STEP of a machine
whose FAULT is None. That a raised fault is such a next state, in place of a stop, is the model's choice (log 3) on the
spec's decision D11. -/
def Obligations.EveryInstructionAnswersNextState : Prop :=
  (∀ (i : Instr) (s : State), ∃ t, exec i s = .next t) ∧ (∀ s : State, s.fault = none → ∃ t, step s = .next t)

/-- R43: the byte at the lower address is bits 15:8 of the word, the byte at the higher address bits 7:0. -/
def Obligations.FetchIsBigEndian : Prop :=
  ∀ (s : State) (hi lo : Byte), memRead s s.pc.toNat = .ok hi → memRead s (s.pc.toNat + 1) = .ok lo →
    ∃ w, fetchWord s = .ok w ∧ w.toNat = hi.toNat * 256 + lo.toNat

/-- R85, R45: a fetch succeeds exactly when PC is at most 0xFFE, whatever its parity; else the step raises
OutOfRangeAccess (fault entry is the spec's decision D11, log 3). -/
def Obligations.FetchSucceedsExactlyInRange : Prop :=
  ∀ s : State,
    ((∃ w, fetchWord s = .ok w) ↔ s.pc.toNat ≤ 0xFFE) ∧
    (s.fault = none → 0xFFF ≤ s.pc.toNat → step s = .next { s with fault := some .outOfRangeAccess })

/-- R192, R66: a fetched word that is no instruction raises UnknownOpcode, and so does nothing else. -/
def Obligations.UnknownOpcodeExactlyWhen : Prop :=
  ∀ s t : State, s.fault = none → step s = .next t →
    (t.fault = some .unknownOpcode ↔ ∃ w, fetchWord s = .ok w ∧ wordDefined w = false)

/-- R202 (decision D11, log 3): a machine whose FAULT is set changes nothing in STEP, TICK, KEY and LOAD, and its STEP
reports that cause; RESET clears it (R200, R220). -/
def Obligations.FaultIsSticky : Prop :=
  ∀ (s : State) (f : Fault), s.fault = some f →
    step s = .fault f ∧ stepOutcome s = some (.fault f) ∧ tick s = s ∧ (∀ k, keyEvent k s = s) ∧
      (∀ img, load img s = s) ∧ ∀ init, (resetEvent init s).fault = none

/-- R198 (decision D11, log 3): a step that raises a fault leaves everything but FAULT as it was, whatever instruction
it ran. -/
def Obligations.FaultingStepChangesOnlyFault : Prop :=
  ∀ (s t : State) (f : Fault), s.fault = none → step s = .next t → t.fault = some f → t = { s with fault := some f }

/-- R195: the complete list of accesses that raise OutOfRangeAccess: the fetch, the four instructions, and LOAD. -/
def Obligations.OutOfRangeExactlyWhen : Prop :=
  (∀ s t : State, s.fault = none → step s = .next t →
    (t.fault = some .outOfRangeAccess ↔ 0xFFF ≤ s.pc.toNat ∨ ∃ i, fetchInstr s = .ok i ∧ DataOutOfRange i s)) ∧
  (∀ (s : State) (img : List Byte), s.fault = none →
    ((load img s).fault = some .outOfRangeAccess ↔ 4096 < 0x200 + img.length) ∧
    ((load img s).fault = none ↔ 0x200 + img.length ≤ 4096))

/-- R193, R194: call alone raises StackOverflow, exactly with 24 entries (or more, in states no run reaches); return
alone raises StackUnderflow, exactly with none; and from an empty stack 24 calls succeed and a 25th overflows. -/
def Obligations.StackFaultsExactlyWhen : Prop :=
  (∀ s t : State, s.fault = none → step s = .next t →
    (t.fault = some .stackOverflow ↔ ∃ nnn, fetchInstr s = .ok (.call nnn) ∧ 24 ≤ s.stack.length) ∧
    (t.fault = some .stackUnderflow ↔ fetchInstr s = .ok .ret ∧ s.stack = [])) ∧
  (∀ (s : State) (targets : List Addr12), s.fault = none → s.stack = [] → targets.length = 24 →
    ∃ t, runCalls targets s = some t ∧ t.stack.length = 24 ∧
      ∀ nnn, ∃ u, exec (.call nnn) t = .next u ∧ u.fault = some .stackOverflow)

/-- R196, R88: only a jump, call, jump-offset or return whose target is its own address stalls, and a call with a full
stack reports StackOverflow instead (R197). -/
def Obligations.StallExactlyWhen : Prop :=
  ∀ s t : State, s.fault = none → step s = .next t →
    (t.fault = some .stalledProgramCounter ↔
      ∃ i, fetchInstr s = .ok i ∧ transferTarget i s = some s.pc ∧ ¬((∃ nnn, i = .call nnn) ∧ 24 ≤ s.stack.length))

/-- R15: how each instruction leaves PC in a step that completes. -/
def Obligations.PcAfterCompletedStep : Prop :=
  ∀ (s t : State) (i : Instr), s.fault = none → fetchInstr s = .ok i → step s = .next t → t.fault = none →
    t.pc = pcAfter i s

/-- R89, R84: the outcome of a step is one of ok, awaiting and fault(c), each with what it says of the states. R89 says
nothing of the state beside FAULT: that a step that raises c keeps the rest of the state, and that a dead machine stays
dead, is the spec's decision D11 (R198, R202), and which of the two is the interface's fault is the model's choice (log
3). That the guard looks at one step is D10. -/
def Obligations.StepOutcomeIsOneOfThree : Prop :=
  ∀ s : State,
    (stepOutcome s = some .ok ∧ s.fault = none ∧ ∃ t, step s = .next t ∧ t.fault = none ∧ t.pc ≠ s.pc) ∨
    (stepOutcome s = some .awaiting ∧ s.fault = none ∧ step s = .next s ∧ s.key = none ∧
      ∃ x, fetchInstr s = .ok (.awaitKey x)) ∨
    (∃ c, stepOutcome s = some (.fault c) ∧
      ((s.fault = none ∧ step s = .next { s with fault := some c }) ∨ (s.fault = some c ∧ step s = .fault c)))

/-! ### Whole-machine rules -/

/-- R31, R16, R29 and the canonical form of memory: every step keeps the invariant. -/
def Obligations.StepKeepsInvariant : Prop :=
  ∀ s t : State, Inv s → step s = .next t → Inv t

/-- R31, with the bounds of R16 and R29: every host event keeps the invariant. RESET establishes it from any state, by
the reset values of R30 and R220, of which PC = 0x200 is the spec's decision D1 (log 13); an overlong LOAD keeps it by
D26. The canonical form of memory is the model's own. -/
def Obligations.HostEventsKeepInvariant : Prop :=
  (∀ (s : State) (init : Memory), Memory.wf init = true → Inv (resetEvent init s)) ∧
  (∀ s : State, Inv s → Inv (tick s) ∧ (∀ k, Inv (keyEvent k s)) ∧ ∀ img, Inv (load img s))

/-- The invariant holds at reset. -/
def Obligations.ResetMeetsInvariant : Prop := Inv State.reset

/-- R83, R31, with the bounds of R16 and R29: after any RESET (values: R30, decision D1, log 13) and LOADs, in any
interleaving of STEP, TICK and KEY (log 9), the invariant holds. FAULT once set stays (R202, decision D11): TICK and KEY
keep it, and no STEP answers a next state, which is the model's choice (log 3). LOAD of a faulted state is in
FaultIsSticky. -/
def Obligations.ReachableStatesMeetInvariant : Prop :=
  (∀ s : State, Reachable s → Inv s) ∧
  (∀ (s : State) (f : Fault), s.fault = some f → (tick s).fault = some f ∧ (∀ k, (keyEvent k s).fault = some f) ∧
    ∀ t, step s ≠ .next t)

/-- R30, R220: the reset state (values by the spec's decision D1; memory is MEM_INIT, log 1). -/
def Obligations.ResetStateValues : Prop :=
  ∀ (s : State) (init : Memory),
    let t := resetEvent init s
    (∀ x, t.getV x = 0) ∧ t.idx = 0 ∧ t.pc.toNat = 0x200 ∧ t.stack = [] ∧ t.dt = 0 ∧ t.st = 0 ∧
      (∀ r c, t.fb.cell r c = false) ∧ t.key = none ∧ t.fault = none ∧
      ∀ a, memRead t a = if a < 4096 then .ok (Memory.get a init) else .error .outOfRangeAccess

/-- R11, R12: an instruction writes no general register but those its rule names; VF among them only for the six that
use it as a flag, or where it is the named register. -/
def Obligations.OnlyNamedRegistersWritten : Prop :=
  ∀ (i : Instr) (s t : State), exec i s = .next t → SameRegsExcept (regsWritten i) s t

/-- R17, R22 to R24, R29, R54: what each instruction may write beside registers and PC. Only call and return touch the
stack, only clear-screen and draw the display, only store-bcd and block-store memory, and none the input latch. -/
def Obligations.OnlyNamedPartsWritten : Prop :=
  ∀ (i : Instr) (s t : State), exec i s = .next t → SameExcept (partsWritten i) s t

/-- R22: "no instruction reads ST". Two states that differ in ST alone step to states that differ in ST at most. -/
def Obligations.SoundCounterIsInvisible : Prop :=
  ∀ (s t : State) (b : Byte), step s = .next t → ∃ c, step { s with st := b } = .next { t with st := c }

/-! ### Memory -/

/-- R41, R42, R47 (low memory is writable by the spec's decision D25): the bus faults at 4096 and above, and never
wraps; a byte written reads back, and no other byte, and nothing else, changes. -/
def Obligations.BusReadsWhatWasWritten : Prop :=
  ∀ (s : State) (a : Nat) (b : Byte),
    (4096 ≤ a → memRead s a = .error .outOfRangeAccess ∧ memWrite s a b = .error .outOfRangeAccess) ∧
    (a < 4096 → (∃ c, memRead s a = .ok c) ∧
      ∃ t, memWrite s a b = .ok t ∧ memRead t a = .ok b ∧ (∀ a', a' ≠ a → memRead t a' = memRead s a') ∧
        SameRegsExcept [] s t ∧ t.pc = s.pc ∧ SameExcept [.mem] s t)

/-! ### Control flow (file 41) -/

/-- R101, R21: return takes the last entry as PC, with no further + 2; with an empty stack it raises StackUnderflow.
The guard on a popped address equal to PC is in StallExactlyWhen. -/
def Obligations.ReturnPops : Prop :=
  (∀ (s : State) (l : List Word) (a : Word), s.stack = l ++ [a] →
    ∃ t, exec .ret s = .next t ∧ t.pc = a ∧ t.stack = l ∧ SameRegsExcept [] s t ∧ SameExcept [.stack] s t) ∧
  (∀ s : State, s.stack = [] → exec .ret s = .next { s with fault := some .stackUnderflow })

/-- R102: jump loads the zero-extended nnn, with no + 2. The guard is in StallExactlyWhen. -/
def Obligations.JumpLoadsTarget : Prop :=
  ∀ (nnn : Addr12) (s : State),
    ∃ t, exec (.jump nnn) s = .next t ∧ t.pc.toNat = nnn.toNat ∧ SameRegsExcept [] s t ∧ SameExcept [] s t

/-- R103, R20: call pushes PC + 2 on top and loads nnn; with 24 entries it raises StackOverflow and pushes nothing. -/
def Obligations.CallPushesReturnAddress : Prop :=
  ∀ (nnn : Addr12) (s : State),
    (s.stack.length < 24 →
      ∃ t, exec (.call nnn) s = .next t ∧ t.pc.toNat = nnn.toNat ∧ t.stack = s.stack ++ [s.pc + 2#16] ∧
        SameRegsExcept [] s t ∧ SameExcept [.stack] s t) ∧
    (24 ≤ s.stack.length → exec (.call nnn) s = .next { s with fault := some .stackOverflow })

/-- The source's property quoted in R101: "executing a call to address A, then return, restores PC to (original PC +
2)"; and the stack with it. -/
def Obligations.CallThenReturnRestores : Prop :=
  ∀ (nnn : Addr12) (s : State), s.stack.length < 24 →
    ∃ t u, exec (.call nnn) s = .next t ∧ exec .ret t = .next u ∧ u.pc = s.pc + 2#16 ∧ u.stack = s.stack ∧
      SameRegsExcept [] s u ∧ SameExcept [] s u

/-- R104 to R107: each compare-and-skip advances PC by exactly 4 when its condition holds, else by exactly 2, and
changes nothing else. -/
def Obligations.CompareSkips : Prop :=
  ∀ (x y : Nibble) (kk : Byte) (s : State),
    (∃ t, exec (.skipEqImm x kk) s = .next t ∧ t.pc = s.pc + (if (s.getV x).toNat = kk.toNat then 4#16 else 2#16) ∧
      SameRegsExcept [] s t ∧ SameExcept [] s t) ∧
    (∃ t, exec (.skipNeImm x kk) s = .next t ∧ t.pc = s.pc + (if (s.getV x).toNat ≠ kk.toNat then 4#16 else 2#16) ∧
      SameRegsExcept [] s t ∧ SameExcept [] s t) ∧
    (∃ t, exec (.skipEqReg x y) s = .next t ∧ t.pc = s.pc + (if (s.getV x).toNat = (s.getV y).toNat then 4#16 else 2#16) ∧
      SameRegsExcept [] s t ∧ SameExcept [] s t) ∧
    (∃ t, exec (.skipNeReg x y) s = .next t ∧ t.pc = s.pc + (if (s.getV x).toNat ≠ (s.getV y).toNat then 4#16 else 2#16) ∧
      SameRegsExcept [] s t ∧ SameExcept [] s t)

/-- R108 (no reduction to 12 bits: the spec's decision D17): PC becomes nnn + V0 exactly. -/
def Obligations.JumpOffsetAddsV0 : Prop :=
  ∀ (nnn : Addr12) (s : State),
    ∃ t, exec (.jumpOffset nnn) s = .next t ∧ t.pc.toNat = nnn.toNat + (s.getV 0#4).toNat ∧ SameRegsExcept [] s t ∧
      SameExcept [] s t

/-! ### Registers (file 42) -/

/-- R120. -/
def Obligations.SetImmWritesRegister : Prop :=
  ∀ (x : Nibble) (kk : Byte) (s : State),
    ∃ t, exec (.setImm x kk) s = .next t ∧ t.getV x = kk ∧ SameRegsExcept [x] s t ∧ t.pc = s.pc + 2#16 ∧
      SameExcept [] s t

/-- R121: the sum modulo 256, and VF only as the destination. -/
def Obligations.AddImmWraps : Prop :=
  ∀ (x : Nibble) (kk : Byte) (s : State),
    ∃ t, exec (.addImm x kk) s = .next t ∧ (t.getV x).toNat = ((s.getV x).toNat + kk.toNat) % 256 ∧
      SameRegsExcept [x] s t ∧ t.pc = s.pc + 2#16 ∧ SameExcept [] s t

/-- R122. -/
def Obligations.MoveCopiesRegister : Prop :=
  ∀ (x y : Nibble) (s : State),
    ∃ t, exec (.move x y) s = .next t ∧ t.getV x = s.getV y ∧ SameRegsExcept [x] s t ∧ t.pc = s.pc + 2#16 ∧
      SameExcept [] s t

/-- R123 to R125 (VF untouched: the spec's decision D29): each bit of Vx is the operation of the two bits before. -/
def Obligations.LogicalInstructions : Prop :=
  ∀ (x y : Nibble) (s : State),
    (∃ t, exec (.or x y) s = .next t ∧
      (∀ k, (t.getV x).getLsbD k = ((s.getV x).getLsbD k || (s.getV y).getLsbD k)) ∧
      SameRegsExcept [x] s t ∧ t.pc = s.pc + 2#16 ∧ SameExcept [] s t) ∧
    (∃ t, exec (.and x y) s = .next t ∧
      (∀ k, (t.getV x).getLsbD k = ((s.getV x).getLsbD k && (s.getV y).getLsbD k)) ∧
      SameRegsExcept [x] s t ∧ t.pc = s.pc + 2#16 ∧ SameExcept [] s t) ∧
    (∃ t, exec (.xor x y) s = .next t ∧
      (∀ k, (t.getV x).getLsbD k = ((s.getV x).getLsbD k ^^ (s.getV y).getLsbD k)) ∧
      SameRegsExcept [x] s t ∧ t.pc = s.pc + 2#16 ∧ SameExcept [] s t)

/-- R127, R133: the sum modulo 256 and the carry; with x = 15 VF holds the carry and the sum is lost (the order of the
writes is the spec's decision D6, log 6). -/
def Obligations.AddRegSumAndCarry : Prop :=
  ∀ (x y : Nibble) (s : State),
    ∃ t, exec (.addReg x y) s = .next t ∧
      (x ≠ 15#4 → (t.getV x).toNat = ((s.getV x).toNat + (s.getV y).toNat) % 256) ∧
      (t.getV 15#4).toNat = (if 255 < (s.getV x).toNat + (s.getV y).toNat then 1 else 0) ∧
      SameRegsExcept [x, 15#4] s t ∧ t.pc = s.pc + 2#16 ∧ SameExcept [] s t

/-- R128, R133: Vx - Vy modulo 256 and NOT borrow; with x = 15 VF holds the flag (D6, log 6). -/
def Obligations.SubRegDifferenceAndNoBorrow : Prop :=
  ∀ (x y : Nibble) (s : State),
    ∃ t, exec (.subReg x y) s = .next t ∧
      (x ≠ 15#4 → ((t.getV x).toNat : Int) = ((s.getV x).toNat - (s.getV y).toNat : Int) % 256) ∧
      (t.getV 15#4).toNat = (if (s.getV y).toNat ≤ (s.getV x).toNat then 1 else 0) ∧
      SameRegsExcept [x, 15#4] s t ∧ t.pc = s.pc + 2#16 ∧ SameExcept [] s t

/-- R130, R133: Vy - Vx modulo 256 and NOT borrow; with x = 15 VF holds the flag (D6, log 6). -/
def Obligations.SubRegRevDifferenceAndNoBorrow : Prop :=
  ∀ (x y : Nibble) (s : State),
    ∃ t, exec (.subRegRev x y) s = .next t ∧
      (x ≠ 15#4 → ((t.getV x).toNat : Int) = ((s.getV y).toNat - (s.getV x).toNat : Int) % 256) ∧
      (t.getV 15#4).toNat = (if (s.getV x).toNat ≤ (s.getV y).toNat then 1 else 0) ∧
      SameRegsExcept [x, 15#4] s t ∧ t.pc = s.pc + 2#16 ∧ SameExcept [] s t

/-- R129 for either SHIFT_SRC (log 4): half the source, and its bit 0 to VF; with x = 15 VF holds the half and the flag
is lost (D6, log 6). -/
def Obligations.ShiftRightHalvesSource : Prop :=
  ∀ (x y : Nibble) (s : State),
    let b := if Config.shiftSrc = .vx then s.getV x else s.getV y
    ∃ t, exec (.shiftRight x y) s = .next t ∧ (t.getV x).toNat = b.toNat / 2 ∧
      (x ≠ 15#4 → (t.getV 15#4).toNat = b.toNat % 2) ∧
      SameRegsExcept [x, 15#4] s t ∧ t.pc = s.pc + 2#16 ∧ SameExcept [] s t

/-- R131 for either SHIFT_SRC (log 4): twice the source modulo 256, and its bit 7 to VF; with x = 15 VF holds the
double and the flag is lost (D6, log 6). -/
def Obligations.ShiftLeftDoublesSource : Prop :=
  ∀ (x y : Nibble) (s : State),
    let b := if Config.shiftSrc = .vx then s.getV x else s.getV y
    ∃ t, exec (.shiftLeft x y) s = .next t ∧ (t.getV x).toNat = b.toNat * 2 % 256 ∧
      (x ≠ 15#4 → (t.getV 15#4).toNat = b.toNat / 128) ∧
      SameRegsExcept [x, 15#4] s t ∧ t.pc = s.pc + 2#16 ∧ SameExcept [] s t

/-- R132, for every value of the draw (log 2): Vx is some byte ANDed with kk, so a bit that kk lacks is 0 and the
result is at most kk; each execution takes the next draw. -/
def Obligations.RandomIsMaskedByImmediate : Prop :=
  ∀ (x : Nibble) (kk : Byte) (s : State),
    ∃ t r, exec (.random x kk) s = .next t ∧ t.getV x = r &&& kk ∧ r = Config.draw s.draws ∧
      (∀ k, kk.getLsbD k = false → (t.getV x).getLsbD k = false) ∧ t.draws = s.draws + 1 ∧
      SameRegsExcept [x] s t ∧ t.pc = s.pc + 2#16 ∧ SameExcept [.draws] s t

/-! ### Index and memory (file 43) -/

/-- R141. -/
def Obligations.SetIndexLoadsAddress : Prop :=
  ∀ (nnn : Addr12) (s : State),
    ∃ t, exec (.setIndex nnn) s = .next t ∧ t.idx.toNat = nnn.toNat ∧ SameRegsExcept [] s t ∧ t.pc = s.pc + 2#16 ∧
      SameExcept [.idx] s t

/-- R142 (modulo 65536 and no flag: the spec's decisions D14, D29). -/
def Obligations.AddToIndexWraps : Prop :=
  ∀ (x : Nibble) (s : State),
    ∃ t, exec (.addToIndex x) s = .next t ∧ t.idx.toNat = (s.idx.toNat + (s.getV x).toNat) % 65536 ∧
      SameRegsExcept [] s t ∧ t.pc = s.pc + 2#16 ∧ SameExcept [.idx] s t

/-- R143 (no mask: the spec's decision D16): I = 5 Vx exactly, at most 1275. -/
def Obligations.FontCharAddressIsFiveTimes : Prop :=
  ∀ (x : Nibble) (s : State),
    ∃ t, exec (.fontCharAddress x) s = .next t ∧ t.idx.toNat = (s.getV x).toNat * 5 ∧
      SameRegsExcept [] s t ∧ t.pc = s.pc + 2#16 ∧ SameExcept [.idx] s t

/-- R144: the decimal digits, hundreds first, at I, I + 1, I + 2; I stays; out of range, OutOfRangeAccess and no byte
written. -/
def Obligations.StoreBcdWritesDigits : Prop :=
  ∀ (x : Nibble) (s : State),
    (s.idx.toNat + 2 < 4096 →
      ∃ t h d o, exec (.storeBcd x) s = .next t ∧
        memRead t s.idx.toNat = .ok h ∧ memRead t (s.idx.toNat + 1) = .ok d ∧ memRead t (s.idx.toNat + 2) = .ok o ∧
        h.toNat = (s.getV x).toNat / 100 ∧ d.toNat = (s.getV x).toNat / 10 % 10 ∧ o.toNat = (s.getV x).toNat % 10 ∧
        (∀ a, a < s.idx.toNat ∨ s.idx.toNat + 3 ≤ a → memRead t a = memRead s a) ∧
        SameRegsExcept [] s t ∧ t.pc = s.pc + 2#16 ∧ SameExcept [.mem] s t) ∧
    (4096 ≤ s.idx.toNat + 2 → exec (.storeBcd x) s = .next { s with fault := some .outOfRangeAccess })

/-- R146, R148 for either MEM_INCREMENT (log 5; the amount x + 1 is the spec's decision D8): V0 to Vx go to I, I + 1,
and so on; out of range, OutOfRangeAccess and nothing written. -/
def Obligations.BlockStoreWritesRegisters : Prop :=
  ∀ (x : Nibble) (s : State),
    (s.idx.toNat + x.toNat < 4096 →
      ∃ t, exec (.blockStore x) s = .next t ∧
        (∀ j : Nibble, j ≤ x → memRead t (s.idx.toNat + j.toNat) = .ok (s.getV j)) ∧
        (∀ a, a < s.idx.toNat ∨ s.idx.toNat + x.toNat + 1 ≤ a → memRead t a = memRead s a) ∧
        t.idx.toNat = (if Config.memIncrement = .none then s.idx.toNat else (s.idx.toNat + x.toNat + 1) % 65536) ∧
        SameRegsExcept [] s t ∧ t.pc = s.pc + 2#16 ∧ SameExcept [.mem, .idx] s t) ∧
    (4096 ≤ s.idx.toNat + x.toNat → exec (.blockStore x) s = .next { s with fault := some .outOfRangeAccess })

/-- R147, R148 for either MEM_INCREMENT (log 5; D8): V0 to Vx take the bytes at I, I + 1, and so on; the registers above
Vx stay; out of range, OutOfRangeAccess and no register changes. -/
def Obligations.BlockLoadReadsRegisters : Prop :=
  ∀ (x : Nibble) (s : State),
    (s.idx.toNat + x.toNat < 4096 →
      ∃ t, exec (.blockLoad x) s = .next t ∧
        (∀ j : Nibble, j ≤ x → memRead s (s.idx.toNat + j.toNat) = .ok (t.getV j)) ∧
        (∀ j : Nibble, x < j → t.getV j = s.getV j) ∧
        t.idx.toNat = (if Config.memIncrement = .none then s.idx.toNat else (s.idx.toNat + x.toNat + 1) % 65536) ∧
        t.pc = s.pc + 2#16 ∧ SameExcept [.idx] s t) ∧
    (4096 ≤ s.idx.toNat + x.toNat → exec (.blockLoad x) s = .next { s with fault := some .outOfRangeAccess })

/-! ### Display (file 44) -/

/-- R161: all 2048 cells become 0, and VF is not written. -/
def Obligations.ClearScreenZeroesCells : Prop :=
  ∀ s : State,
    ∃ t, exec .clearScreen s = .next t ∧ (∀ r c, t.fb.cell r c = false) ∧ SameRegsExcept [] s t ∧
      t.pc = s.pc + 2#16 ∧ SameExcept [.fb] s t

/-- R164 (b): the blitter's loop equals the closed form: the old cells XOR the sprite's wrapped image, and a collision
exactly when some cell under a 1 bit of the image was 1. -/
def Obligations.BlitterXorsWrappedImage : Prop :=
  ∀ (rows : List Byte) (x0 y0 : Nat) (f : Framebuffer), rows.length ≤ 32 →
    (∀ r c, (drawSprite rows x0 y0 f).1.cell r c = (f.cell r c ^^ spriteBit rows x0 y0 r c)) ∧
    ((drawSprite rows x0 y0 f).2 = true ↔ ∃ r c, f.cell r c = true ∧ spriteBit rows x0 y0 r c = true)

/-- R163 (the coordinates from Vx and Vy are the spec's decision D5): n bytes at I drawn at column Vx and row Vy, VF the
collision; n = 0 draws nothing wherever I points; out of range, OutOfRangeAccess and nothing changes. -/
def Obligations.DrawUpdatesDisplayAndVf : Prop :=
  ∀ (x y n : Nibble) (s : State),
    (n = 0#4 ∨ s.idx.toNat + n.toNat ≤ 4096 →
      ∃ t rows, exec (.draw x y n) s = .next t ∧ rows.length = n.toNat ∧
        (∀ k, k < n.toNat → memRead s (s.idx.toNat + k) = .ok (rows.getD k 0)) ∧
        (∀ r c, t.fb.cell r c = (s.fb.cell r c ^^ spriteBit rows (s.getV x).toNat (s.getV y).toNat r c)) ∧
        ((∃ r c, s.fb.cell r c = true ∧ t.fb.cell r c = false) → t.getV 15#4 = 1) ∧
        ((∀ r c, s.fb.cell r c = true → t.fb.cell r c = true) → t.getV 15#4 = 0) ∧
        SameRegsExcept [15#4] s t ∧ t.pc = s.pc + 2#16 ∧ SameExcept [.fb] s t) ∧
    (n ≠ 0#4 ∧ 4096 < s.idx.toNat + n.toNat →
      exec (.draw x y n) s = .next { s with fault := some .outOfRangeAccess })

/-- R164 (c): drawing the same sprite twice at the same place leaves the display as it was, and the second draw
collides exactly when some cell under a 1 bit was 0 before the first. -/
def Obligations.DrawingTwiceRestores : Prop :=
  ∀ (rows : List Byte) (x0 y0 : Nat) (f : Framebuffer), rows.length ≤ 15 →
    let g := (drawSprite rows x0 y0 f).1
    (drawSprite rows x0 y0 g).1 = f ∧
    ((drawSprite rows x0 y0 g).2 = true ↔ ∃ r c, f.cell r c = false ∧ spriteBit rows x0 y0 r c = true)

/-! ### Input and timers (file 45), host events -/

/-- R172, R173, R171 (all 8 bits of Vx compared: the spec's decision D15): the key skips, nothing else changed. -/
def Obligations.KeySkips : Prop :=
  ∀ (x : Nibble) (s : State),
    (∃ t, exec (.skipIfKey x) s = .next t ∧
      ((∃ k, s.key = some k ∧ k.toNat = (s.getV x).toNat) → t.pc = s.pc + 4#16) ∧
      ((∀ k, s.key = some k → k.toNat ≠ (s.getV x).toNat) → t.pc = s.pc + 2#16) ∧
      SameRegsExcept [] s t ∧ SameExcept [] s t) ∧
    (∃ t, exec (.skipIfNotKey x) s = .next t ∧
      ((∃ k, s.key = some k ∧ k.toNat = (s.getV x).toNat) → t.pc = s.pc + 2#16) ∧
      ((∀ k, s.key = some k → k.toNat ≠ (s.getV x).toNat) → t.pc = s.pc + 4#16) ∧
      SameRegsExcept [] s t ∧ SameExcept [] s t)

/-- R174, R176, R177: the three timer instructions. -/
def Obligations.TimerInstructions : Prop :=
  ∀ (x : Nibble) (s : State),
    (∃ t, exec (.readDelayTimer x) s = .next t ∧ t.getV x = s.dt ∧ SameRegsExcept [x] s t ∧ t.pc = s.pc + 2#16 ∧
      SameExcept [] s t) ∧
    (∃ t, exec (.setDelayTimer x) s = .next t ∧ t.dt = s.getV x ∧ SameRegsExcept [] s t ∧ t.pc = s.pc + 2#16 ∧
      SameExcept [.dt] s t) ∧
    (∃ t, exec (.setSoundTimer x) s = .next t ∧ t.st = s.getV x ∧ SameRegsExcept [] s t ∧ t.pc = s.pc + 2#16 ∧
      SameExcept [.st] s t)

/-- R175 (level-sensitive, the latch not cleared: the spec's decision D28): with a key latched Vx takes its code; with
none, nothing changes. -/
def Obligations.AwaitKeyTakesLatchedKey : Prop :=
  ∀ (x : Nibble) (s : State),
    (∀ k, s.key = some k →
      ∃ t, exec (.awaitKey x) s = .next t ∧ (t.getV x).toNat = k.toNat ∧ SameRegsExcept [x] s t ∧ t.pc = s.pc + 2#16 ∧
        SameExcept [] s t) ∧
    (s.key = none → exec (.awaitKey x) s = .next s)

/-- R209, R175: a machine that waits for a key stays as it is however often it steps, and the first step after
KEY(Some(k)) completes the await-key with that code. -/
def Obligations.WaitEndsWithKeyEvent : Prop :=
  ∀ (s : State) (x k : Nibble), s.fault = none → fetchInstr s = .ok (.awaitKey x) → s.key = none →
    (∀ n, Host.Core.run Sys2Proof.core n s = .next s) ∧
    ∃ t, step (keyEvent (some k) s) = .next t ∧ (t.getV x).toNat = k.toNat ∧ t.pc = s.pc + 2#16 ∧ t.key = some k ∧
      t.fault = none

/-- R206 (both counters count: conflict C1, the spec's decision D9, log 7): each counter one lower with floor 0, and
nothing else. -/
def Obligations.TickCountsBothDown : Prop :=
  ∀ s : State, s.fault = none →
    (tick s).dt.toNat = s.dt.toNat - 1 ∧ (tick s).st.toNat = s.st.toNat - 1 ∧ SameRegsExcept [] s (tick s) ∧
      (tick s).pc = s.pc ∧ SameExcept [.dt, .st] s (tick s)

/-- R92: KEY overwrites the latch and changes nothing else; on a faulted machine it changes nothing. -/
def Obligations.KeyEventSetsLatch : Prop :=
  ∀ (s : State) (k : Option Nibble),
    (s.fault = none → (keyEvent k s).key = k ∧ SameRegsExcept [] s (keyEvent k s) ∧ (keyEvent k s).pc = s.pc ∧
      SameExcept [.key] s (keyEvent k s)) ∧
    (s.fault ≠ none → keyEvent k s = s)

/-- R90 (an image too long is discarded whole: the spec's decision D26): the bytes of the image from 0x200 on, and
nothing else. -/
def Obligations.LoadCopiesImage : Prop :=
  ∀ (s : State) (img : List Byte), s.fault = none →
    (img.length ≤ 3584 →
      (∀ k, k < img.length → memRead (load img s) (0x200 + k) = .ok (img.getD k 0)) ∧
      (∀ a, a < 0x200 ∨ 0x200 + img.length ≤ a → memRead (load img s) a = memRead s a) ∧
      SameRegsExcept [] s (load img s) ∧ (load img s).pc = s.pc ∧ SameExcept [.mem] s (load img s)) ∧
    (3584 < img.length → load img s = { s with fault := some .outOfRangeAccess })
end

