-- ==== Sys2Proof/Laws/Decode.lean ====
section
/-!
SUPPORT. The fields of a word and the words that the formats build, as numbers, and words as bytes.
-/

namespace Sys2Proof

/-! ### Fields as numbers -/

theorem fieldOp_toNat (w : Word) : (fieldOp w).toNat = w.toNat / 4096 := by
  have := w.isLt
  simp only [fieldOp, BitVec.extractLsb'_toNat, Nat.shiftRight_eq_div_pow]
  omega

theorem fieldX_toNat (w : Word) : (fieldX w).toNat = w.toNat / 256 % 16 := by
  simp [fieldX, BitVec.extractLsb'_toNat, Nat.shiftRight_eq_div_pow]

theorem fieldY_toNat (w : Word) : (fieldY w).toNat = w.toNat / 16 % 16 := by
  simp [fieldY, BitVec.extractLsb'_toNat, Nat.shiftRight_eq_div_pow]

theorem fieldN_toNat (w : Word) : (fieldN w).toNat = w.toNat % 16 := by
  simp [fieldN, BitVec.extractLsb'_toNat]

theorem fieldKk_toNat (w : Word) : (fieldKk w).toNat = w.toNat % 256 := by
  simp [fieldKk, BitVec.extractLsb'_toNat]

theorem fieldNnn_toNat (w : Word) : (fieldNnn w).toNat = w.toNat % 4096 := by
  simp [fieldNnn, BitVec.extractLsb'_toNat]

/-! ### Formats as numbers -/

/-- Two concatenated values as one number. -/
theorem append_toNat {n m : Nat} (a : BitVec n) (b : BitVec m) : (a ++ b).toNat = a.toNat * 2 ^ m + b.toNat := by
  rw [BitVec.toNat_append, Nat.shiftLeft_eq, Nat.mul_comm, Nat.two_pow_add_eq_or_of_lt b.isLt]

theorem formatA_toNat (op : Nibble) (nnn : Addr12) : (formatA op nnn).toNat = op.toNat * 4096 + nnn.toNat :=
  append_toNat op nnn

theorem formatK_toNat (op x : Nibble) (kk : Byte) :
    (formatK op x kk).toNat = op.toNat * 4096 + x.toNat * 256 + kk.toNat := by
  have h1 : (op ++ x).toNat = op.toNat * 16 + x.toNat := append_toNat op x
  have h2 : (formatK op x kk).toNat = (op ++ x).toNat * 256 + kk.toNat := append_toNat (op ++ x) kk
  rw [h2, h1]
  ring

theorem formatR_toNat (op x y sub : Nibble) :
    (formatR op x y sub).toNat = op.toNat * 4096 + x.toNat * 256 + y.toNat * 16 + sub.toNat := by
  have h1 : (op ++ x).toNat = op.toNat * 16 + x.toNat := append_toNat op x
  have h2 : (y ++ sub).toNat = y.toNat * 16 + sub.toNat := append_toNat y sub
  have h3 : (formatR op x y sub).toNat = (op ++ x).toNat * 256 + (y ++ sub).toNat :=
    append_toNat (op ++ x) (y ++ sub)
  rw [h3, h1, h2]
  ring

/-! ### Fields of the formats -/

@[simp] theorem fieldOp_formatA (op : Nibble) (nnn : Addr12) : fieldOp (formatA op nnn) = op := by
  have := op.isLt
  have := nnn.isLt
  apply BitVec.eq_of_toNat_eq
  rw [fieldOp_toNat, formatA_toNat]
  omega

@[simp] theorem fieldNnn_formatA (op : Nibble) (nnn : Addr12) : fieldNnn (formatA op nnn) = nnn := by
  have := op.isLt
  have := nnn.isLt
  apply BitVec.eq_of_toNat_eq
  rw [fieldNnn_toNat, formatA_toNat]
  omega

@[simp] theorem fieldOp_formatK (op x : Nibble) (kk : Byte) : fieldOp (formatK op x kk) = op := by
  have := op.isLt
  have := x.isLt
  have := kk.isLt
  apply BitVec.eq_of_toNat_eq
  rw [fieldOp_toNat, formatK_toNat]
  omega

@[simp] theorem fieldX_formatK (op x : Nibble) (kk : Byte) : fieldX (formatK op x kk) = x := by
  have := op.isLt
  have := x.isLt
  have := kk.isLt
  apply BitVec.eq_of_toNat_eq
  rw [fieldX_toNat, formatK_toNat]
  omega

@[simp] theorem fieldKk_formatK (op x : Nibble) (kk : Byte) : fieldKk (formatK op x kk) = kk := by
  have := op.isLt
  have := x.isLt
  have := kk.isLt
  apply BitVec.eq_of_toNat_eq
  rw [fieldKk_toNat, formatK_toNat]
  omega

@[simp] theorem fieldOp_formatR (op x y sub : Nibble) : fieldOp (formatR op x y sub) = op := by
  have := op.isLt
  have := x.isLt
  have := y.isLt
  have := sub.isLt
  apply BitVec.eq_of_toNat_eq
  rw [fieldOp_toNat, formatR_toNat]
  omega

@[simp] theorem fieldX_formatR (op x y sub : Nibble) : fieldX (formatR op x y sub) = x := by
  have := op.isLt
  have := x.isLt
  have := y.isLt
  have := sub.isLt
  apply BitVec.eq_of_toNat_eq
  rw [fieldX_toNat, formatR_toNat]
  omega

@[simp] theorem fieldY_formatR (op x y sub : Nibble) : fieldY (formatR op x y sub) = y := by
  have := op.isLt
  have := x.isLt
  have := y.isLt
  have := sub.isLt
  apply BitVec.eq_of_toNat_eq
  rw [fieldY_toNat, formatR_toNat]
  omega

@[simp] theorem fieldN_formatR (op x y sub : Nibble) : fieldN (formatR op x y sub) = sub := by
  have := op.isLt
  have := x.isLt
  have := y.isLt
  have := sub.isLt
  apply BitVec.eq_of_toNat_eq
  rw [fieldN_toNat, formatR_toNat]
  omega

/-! ### Bytes -/

theorem wordOfBytes_toNat (hi lo : Byte) : (wordOfBytes hi lo).toNat = hi.toNat * 256 + lo.toNat :=
  append_toNat hi lo

/-- The two bytes of a word make the word again. -/
@[simp] theorem wordOfBytes_wordBytes (w : Word) : wordOfBytes (w.extractLsb' 8 8) (w.extractLsb' 0 8) = w := by
  have := w.isLt
  apply BitVec.eq_of_toNat_eq
  rw [wordOfBytes_toNat]
  simp only [BitVec.extractLsb'_toNat, Nat.shiftRight_eq_div_pow]
  omega

theorem decode_two_bytes (hi lo : Byte) (rest : List Byte) :
    decode (hi :: lo :: rest) =
      match decodeWord (wordOfBytes hi lo) with
      | .ok i => .ok (i, rest)
      | .error e => .error e := rfl

/-- What two bytes decode to, read as a word. -/
theorem decodeWord_of_decode {hi lo : Byte} {rest rest' : List Byte} {i : Instr}
    (h : decode (hi :: lo :: rest) = .ok (i, rest')) : decodeWord (wordOfBytes hi lo) = .ok i := by
  rw [decode_two_bytes] at h
  split at h
  · rename_i j hj
    cases h
    exact hj
  · cases h

end Sys2Proof
end

