-- ==== Sys2Proof/Laws/Memory.lean ====
section
/-!
SUPPORT. The laws of the byte store: a byte reads back after it is stored, every other byte is unchanged, and the
canonical form is kept.
-/

namespace Sys2Proof.Machine

@[simp] theorem Memory.get_nil (a : Nat) : Memory.get a [] = Config.unlistedByte := rfl

theorem Memory.get_insert (a a' : Nat) (b : Byte) (m : Memory) :
    Memory.get a' (Memory.insert a b m) = if a' = a then b else Memory.get a' m := by
  induction m with
  | nil => simp [Memory.insert, Memory.get, eq_comm]
  | cons c m ih =>
    obtain ⟨k, w⟩ := c
    simp only [Memory.insert]
    split
    · simp [Memory.get, eq_comm]
    · split
      · rename_i hk
        subst hk
        by_cases h : a' = a <;> simp [Memory.get, h, Ne.symm]
      · simp only [Memory.get, ih]
        by_cases h : k = a'
        · subst h; simp [*]; intro h; omega
        · simp [h]

theorem Memory.get_erase (a a' : Nat) (m : Memory) :
    Memory.get a' (m.filter fun c => c.1 ≠ a) = if a' = a then Config.unlistedByte else Memory.get a' m := by
  induction m with
  | nil => simp
  | cons c m ih =>
    obtain ⟨k, w⟩ := c
    by_cases hk : k = a
    · subst hk
      rw [List.filter_cons_of_neg (by simp), ih]
      by_cases h : a' = k
      · simp [h]
      · simp [h, Memory.get, Ne.symm h]
    · rw [List.filter_cons_of_pos (by simpa using hk)]
      simp only [Memory.get, ih]
      by_cases h : k = a'
      · subst h; simp [hk]
      · simp [h]

/-- Reading after a store. -/
theorem Memory.get_set (a a' : Nat) (b : Byte) (m : Memory) :
    Memory.get a' (Memory.set a b m) = if a' = a then b else Memory.get a' m := by
  unfold Memory.set
  split
  · rename_i h; rw [Memory.get_erase, h]
  · exact Memory.get_insert a a' b m

theorem Memory.wfFrom_cons {lo a : Nat} {b : Byte} {m : Memory} :
    Memory.wfFrom lo ((a, b) :: m) = true ↔
      lo ≤ a ∧ a < Config.memSize ∧ b ≠ Config.unlistedByte ∧ Memory.wfFrom (a + 1) m = true := by
  simp [Memory.wfFrom, and_assoc]

theorem Memory.wfFrom_mono {lo lo' : Nat} (h : lo' ≤ lo) {m : Memory} (hm : Memory.wfFrom lo m = true) :
    Memory.wfFrom lo' m = true := by
  cases m with
  | nil => rfl
  | cons c m =>
    rw [Memory.wfFrom_cons] at hm ⊢
    exact ⟨h.trans hm.1, hm.2⟩

theorem Memory.wfFrom_insert {lo a : Nat} {b : Byte} {m : Memory} (hlo : lo ≤ a) (ha : a < Config.memSize)
    (hb : b ≠ Config.unlistedByte) (hm : Memory.wfFrom lo m = true) :
    Memory.wfFrom lo (Memory.insert a b m) = true := by
  induction m generalizing lo with
  | nil => exact Memory.wfFrom_cons.2 ⟨hlo, ha, hb, rfl⟩
  | cons c m ih =>
    obtain ⟨k, w⟩ := c
    rw [Memory.wfFrom_cons] at hm
    obtain ⟨h1, h2, h3, h4⟩ := hm
    simp only [Memory.insert]
    split
    · exact Memory.wfFrom_cons.2 ⟨hlo, ha, hb, Memory.wfFrom_cons.2 ⟨by omega, h2, h3, h4⟩⟩
    · split
      · subst_vars; exact Memory.wfFrom_cons.2 ⟨hlo, ha, hb, h4⟩
      · exact Memory.wfFrom_cons.2 ⟨h1, h2, h3, ih (by omega) h4⟩

theorem Memory.wfFrom_erase {lo a : Nat} {m : Memory} (hm : Memory.wfFrom lo m = true) :
    Memory.wfFrom lo (m.filter fun c => c.1 ≠ a) = true := by
  induction m generalizing lo with
  | nil => rfl
  | cons c m ih =>
    obtain ⟨k, w⟩ := c
    rw [Memory.wfFrom_cons] at hm
    obtain ⟨h1, h2, h3, h4⟩ := hm
    by_cases hk : k = a
    · rw [List.filter_cons_of_neg (by simpa using hk)]
      exact Memory.wfFrom_mono (by omega) (ih h4)
    · rw [List.filter_cons_of_pos (by simpa using hk)]
      exact Memory.wfFrom_cons.2 ⟨h1, h2, h3, ih h4⟩

/-- A store inside the 4096 bytes keeps the canonical form. -/
theorem Memory.wf_set {a : Nat} {b : Byte} {m : Memory} (ha : a < Config.memSize) (hm : Memory.wf m = true) :
    Memory.wf (Memory.set a b m) = true := by
  unfold Memory.set
  split
  · exact Memory.wfFrom_erase hm
  · exact Memory.wfFrom_insert (Nat.zero_le a) ha ‹_› hm

theorem Memory.wf_reset : Memory.wf State.reset.mem = true := rfl

/-- In canonical form an address below the first listed one reads as an unlisted address. -/
theorem Memory.get_below {lo a : Nat} {m : Memory} (hm : Memory.wfFrom lo m = true) (h : a < lo) :
    Memory.get a m = Config.unlistedByte := by
  induction m generalizing lo with
  | nil => rfl
  | cons c m ih =>
    obtain ⟨k, w⟩ := c
    rw [Memory.wfFrom_cons] at hm
    have hk : k ≠ a := by omega
    simp only [Memory.get, hk, if_false]
    exact ih hm.2.2.2 (by omega)

/-- Memories in canonical form that read the same everywhere are the same list. -/
theorem Memory.ext_of_wf {lo : Nat} {m m' : Memory} (hm : Memory.wfFrom lo m = true)
    (hm' : Memory.wfFrom lo m' = true) (h : ∀ a, Memory.get a m = Memory.get a m') : m = m' := by
  induction m generalizing lo m' with
  | nil =>
    cases m' with
    | nil => rfl
    | cons c m' =>
      obtain ⟨k, w⟩ := c
      rw [Memory.wfFrom_cons] at hm'
      have := h k
      simp only [Memory.get, if_true] at this
      exact absurd this.symm hm'.2.2.1
  | cons c m ih =>
    obtain ⟨k, w⟩ := c
    have hmc := Memory.wfFrom_cons.1 hm
    cases m' with
    | nil =>
      have := h k
      simp only [Memory.get, if_true] at this
      exact absurd this hmc.2.2.1
    | cons c' m' =>
      obtain ⟨k', w'⟩ := c'
      have hmc' := Memory.wfFrom_cons.1 hm'
      have hkk : k = k' := by
        rcases Nat.lt_trichotomy k k' with hlt | heq | hgt
        · have hr := h k
          have : k' ≠ k := by omega
          simp only [Memory.get, if_true, this, if_false] at hr
          rw [Memory.get_below hmc'.2.2.2 (by omega)] at hr
          exact absurd hr hmc.2.2.1
        · exact heq
        · have hr := h k'
          have : k ≠ k' := by omega
          simp only [Memory.get, if_true, this, if_false] at hr
          rw [Memory.get_below hmc.2.2.2 (by omega)] at hr
          exact absurd hr.symm hmc'.2.2.1
      subst hkk
      have hw : w = w' := by simpa [Memory.get] using h k
      subst hw
      have hrest : m = m' := by
        refine ih hmc.2.2.2 hmc'.2.2.2 fun a => ?_
        by_cases ha : k = a
        · subst ha
          rw [Memory.get_below hmc.2.2.2 (by omega), Memory.get_below hmc'.2.2.2 (by omega)]
        · simpa [Memory.get, ha] using h a
      rw [hrest]

end Sys2Proof.Machine
end

