-- ==== Sys2Proof/Laws/State.lean ====
section
/-!
SUPPORT. One lemma per field for each named update of the state, and the laws of reading and writing a general register.
-/

namespace Sys2Proof.Machine

/-! ### setV -/

@[simp] theorem State.setV_idx (s : State) (x : Nibble) (b : Byte) : (s.setV x b).idx = s.idx := rfl
@[simp] theorem State.setV_pc (s : State) (x : Nibble) (b : Byte) : (s.setV x b).pc = s.pc := rfl
@[simp] theorem State.setV_stack (s : State) (x : Nibble) (b : Byte) : (s.setV x b).stack = s.stack := rfl
@[simp] theorem State.setV_dt (s : State) (x : Nibble) (b : Byte) : (s.setV x b).dt = s.dt := rfl
@[simp] theorem State.setV_st (s : State) (x : Nibble) (b : Byte) : (s.setV x b).st = s.st := rfl
@[simp] theorem State.setV_fb (s : State) (x : Nibble) (b : Byte) : (s.setV x b).fb = s.fb := rfl
@[simp] theorem State.setV_key (s : State) (x : Nibble) (b : Byte) : (s.setV x b).key = s.key := rfl
@[simp] theorem State.setV_fault (s : State) (x : Nibble) (b : Byte) : (s.setV x b).fault = s.fault := rfl
@[simp] theorem State.setV_mem (s : State) (x : Nibble) (b : Byte) : (s.setV x b).mem = s.mem := rfl
@[simp] theorem State.setV_draws (s : State) (x : Nibble) (b : Byte) : (s.setV x b).draws = s.draws := rfl

theorem State.getV_setV (s : State) (x y : Nibble) (b : Byte) :
    (s.setV x b).getV y = if y = x then b else s.getV y := by
  unfold State.getV State.setV
  simp only [Vector.getElem_set, eq_comm (a := y), BitVec.toNat_eq]

@[simp] theorem State.getV_setV_self (s : State) (x : Nibble) (b : Byte) : (s.setV x b).getV x = b := by
  simp [State.getV_setV]

theorem State.getV_setV_ne (s : State) {x y : Nibble} (b : Byte) (h : y ≠ x) : (s.setV x b).getV y = s.getV y := by
  simp [State.getV_setV, h]

/-- A register reads the same in two states with the same registers. -/
theorem State.getV_congr {s t : State} (h : t.v = s.v) (x : Nibble) : t.getV x = s.getV x := by
  unfold State.getV
  simp only [h]

/-! ### advance -/

@[simp] theorem State.advance_v (s : State) (k : Word) : (s.advance k).v = s.v := rfl
@[simp] theorem State.advance_idx (s : State) (k : Word) : (s.advance k).idx = s.idx := rfl
@[simp] theorem State.advance_pc (s : State) (k : Word) : (s.advance k).pc = s.pc + k := rfl
@[simp] theorem State.advance_stack (s : State) (k : Word) : (s.advance k).stack = s.stack := rfl
@[simp] theorem State.advance_dt (s : State) (k : Word) : (s.advance k).dt = s.dt := rfl
@[simp] theorem State.advance_st (s : State) (k : Word) : (s.advance k).st = s.st := rfl
@[simp] theorem State.advance_fb (s : State) (k : Word) : (s.advance k).fb = s.fb := rfl
@[simp] theorem State.advance_key (s : State) (k : Word) : (s.advance k).key = s.key := rfl
@[simp] theorem State.advance_fault (s : State) (k : Word) : (s.advance k).fault = s.fault := rfl
@[simp] theorem State.advance_mem (s : State) (k : Word) : (s.advance k).mem = s.mem := rfl
@[simp] theorem State.advance_draws (s : State) (k : Word) : (s.advance k).draws = s.draws := rfl
@[simp] theorem State.getV_advance (s : State) (k : Word) (x : Nibble) : (s.advance k).getV x = s.getV x := rfl

@[simp] theorem State.nextInstr_eq (s : State) : s.nextInstr = s.advance 2#16 := rfl

@[simp] theorem State.skipIf_eq (s : State) (c : Bool) : s.skipIf c = s.advance (if c then 4#16 else 2#16) := rfl

/-! ### Updates of one field read through a register -/

@[simp] theorem State.getV_with_idx (s : State) (a : Word) (x : Nibble) :
    State.getV { s with idx := a } x = s.getV x := rfl
@[simp] theorem State.getV_with_pc (s : State) (a : Word) (x : Nibble) :
    State.getV { s with pc := a } x = s.getV x := rfl
@[simp] theorem State.getV_with_stack (s : State) (a : List Word) (x : Nibble) :
    State.getV { s with stack := a } x = s.getV x := rfl
@[simp] theorem State.getV_with_dt (s : State) (a : Byte) (x : Nibble) :
    State.getV { s with dt := a } x = s.getV x := rfl
@[simp] theorem State.getV_with_st (s : State) (a : Byte) (x : Nibble) :
    State.getV { s with st := a } x = s.getV x := rfl
@[simp] theorem State.getV_with_fb (s : State) (a : Framebuffer) (x : Nibble) :
    State.getV { s with fb := a } x = s.getV x := rfl
@[simp] theorem State.getV_with_key (s : State) (a : Option Nibble) (x : Nibble) :
    State.getV { s with key := a } x = s.getV x := rfl
@[simp] theorem State.getV_with_fault (s : State) (a : Option Fault) (x : Nibble) :
    State.getV { s with fault := a } x = s.getV x := rfl
@[simp] theorem State.getV_with_mem (s : State) (a : Memory) (x : Nibble) :
    State.getV { s with mem := a } x = s.getV x := rfl
@[simp] theorem State.getV_with_draws (s : State) (a : Nat) (x : Nibble) :
    State.getV { s with draws := a } x = s.getV x := rfl

/-! ### Reset -/

@[simp] theorem State.getV_resetWith (init : Memory) (x : Nibble) : (State.resetWith init).getV x = 0 := by
  simp [State.getV, State.resetWith]

end Sys2Proof.Machine
end

