-- ==== Sys2Proof/Laws/Ops.lean ====
section
/-!
SUPPORT. One law per named operation: everything the operation can do.
-/

namespace Sys2Proof.Machine

/-! ### Faults -/

@[simp] theorem raise_eq (f : Fault) (s : State) : raise f s = .next { s with fault := some f } := rfl

@[simp] theorem commit_ok (s t : State) : commit s (.ok t) = .next t := rfl

@[simp] theorem commit_error (s : State) (f : Fault) : commit s (.error f) = .next { s with fault := some f } := rfl

/-- What an instruction that ends by `commit` answers. -/
theorem commit_cases {s t : State} {r : Except Fault State} (h : commit s r = .next t) :
    r = .ok t ∨ ∃ f, r = .error f ∧ t = { s with fault := some f } := by
  cases r with
  | ok u => simp at h; exact .inl (by rw [h])
  | error f => simp at h; exact .inr ⟨f, rfl, h.symm⟩

/-! ### The bus -/

theorem memRead_of_lt {s : State} {a : Nat} (h : a < 4096) : memRead s a = .ok (Memory.get a s.mem) := by
  have : ¬4096 ≤ a := by omega
  simp [memRead, Config.memSize, this]

theorem memRead_of_ge {s : State} {a : Nat} (h : 4096 ≤ a) : memRead s a = .error .outOfRangeAccess := by
  simp [memRead, Config.memSize, h]

/-- All a bus read can answer. -/
theorem memRead_cases (s : State) (a : Nat) :
    (a < 4096 ∧ memRead s a = .ok (Memory.get a s.mem)) ∨ (4096 ≤ a ∧ memRead s a = .error .outOfRangeAccess) := by
  rcases Nat.lt_or_ge a 4096 with h | h
  · exact .inl ⟨h, memRead_of_lt h⟩
  · exact .inr ⟨h, memRead_of_ge h⟩

theorem memRead_congr {s t : State} (h : t.mem = s.mem) (a : Nat) : memRead t a = memRead s a := by
  simp [memRead, h]

theorem memWrite_of_lt {s : State} {a : Nat} {b : Byte} (h : a < 4096) :
    memWrite s a b = .ok { s with mem := Memory.set a b s.mem } := by
  have : ¬4096 ≤ a := by omega
  simp [memWrite, Config.memSize, this]

theorem memWrite_of_ge {s : State} {a : Nat} {b : Byte} (h : 4096 ≤ a) :
    memWrite s a b = .error .outOfRangeAccess := by
  simp [memWrite, Config.memSize, h]

/-- The bus after one store. -/
theorem memRead_set (s : State) (a a' : Nat) (b : Byte) (h : a < 4096) :
    memRead { s with mem := Memory.set a b s.mem } a' = if a' = a then .ok b else memRead s a' := by
  rcases memRead_cases s a' with ⟨h1, h2⟩ | ⟨h1, h2⟩
  · rw [memRead_of_lt h1, h2, Memory.get_set]
    split <;> rfl
  · rw [memRead_of_ge h1, h2, if_neg (by omega)]

/-- All that reading `n` bytes can answer. -/
theorem readBytes_cases (s : State) (a n : Nat) :
    (a + n ≤ 4096 ∨ n = 0) ∧ (∃ bs, readBytes s a n = .ok bs ∧ bs.length = n ∧
        ∀ k, k < n → memRead s (a + k) = .ok (bs.getD k 0)) ∨
      (4096 < a + n ∧ n ≠ 0) ∧ readBytes s a n = .error .outOfRangeAccess := by
  induction n generalizing a with
  | zero => exact .inl ⟨.inr rfl, [], rfl, rfl, by simp⟩
  | succ n ih =>
    rcases memRead_cases s a with ⟨ha, hr⟩ | ⟨ha, hr⟩
    · rcases ih (a + 1) with ⟨hle, bs, hb, hlen, hk⟩ | ⟨hgt, hb⟩
      · refine .inl ⟨by omega, Memory.get a s.mem :: bs, by simp [readBytes, hr, hb], by simp [hlen], ?_⟩
        intro k hk'
        cases k with
        | zero => simpa using hr
        | succ k => simpa [Nat.add_assoc, Nat.add_comm 1 k] using hk k (by omega)
      · exact .inr ⟨by omega, by simp [readBytes, hr, hb]⟩
    · exact .inr ⟨by omega, by simp [readBytes, hr]⟩

/-- What a completed write of bytes leaves: the bytes where they were stored, everything else as it was. -/
structure BytesWritten (s t : State) (a : Nat) (bs : List Byte) : Prop where
  read : ∀ a', memRead t a' = if a ≤ a' ∧ a' < a + bs.length then .ok (bs.getD (a' - a) 0) else memRead s a'
  rest : t = { s with mem := t.mem }
  wf : Memory.wf s.mem = true → Memory.wf t.mem = true

/-- All that writing bytes can answer. -/
theorem writeBytes_cases (s : State) (a : Nat) (bs : List Byte) :
    (a + bs.length ≤ 4096 ∨ bs = []) ∧ (∃ t, writeBytes s a bs = .ok t ∧ BytesWritten s t a bs) ∨
      (4096 < a + bs.length ∧ bs ≠ []) ∧ writeBytes s a bs = .error .outOfRangeAccess := by
  induction bs generalizing s a with
  | nil =>
    refine .inl ⟨.inr rfl, s, rfl, ⟨fun a' => ?_, rfl, id⟩⟩
    rw [if_neg (by simp)]
  | cons b bs ih =>
    rcases Nat.lt_or_ge a 4096 with ha | ha
    · let u : State := { s with mem := Memory.set a b s.mem }
      have hu : memWrite s a b = .ok u := memWrite_of_lt ha
      rcases ih u (a + 1) with ⟨hle, t, ht, hw⟩ | ⟨hgt, he⟩
      · refine .inl ⟨?_, t, by simp [writeBytes, hu, ht], ⟨fun a' => ?_, ?_, fun h => hw.wf (Memory.wf_set ha h)⟩⟩
        · left; rcases hle with h | h
          · simp at h ⊢; omega
          · simp [h]; omega
        · rw [hw.read a', memRead_set s a a' b ha]
          by_cases h1 : a' = a
          · subst h1; simp
          · by_cases h2 : a + 1 ≤ a' ∧ a' < a + 1 + bs.length
            · have h3 : a ≤ a' ∧ a' < a + (b :: bs).length := by simp; omega
              obtain ⟨k, rfl⟩ : ∃ k, a' = a + 1 + k := ⟨a' - (a + 1), by omega⟩
              have : a + 1 + k - a = k + 1 := by omega
              rw [if_pos h2, if_pos h3, this]
              simp
            · have h3 : ¬(a ≤ a' ∧ a' < a + (b :: bs).length) := by simp; omega
              rw [if_neg h2, if_neg h1, if_neg h3]
        · rw [hw.rest]
      · refine .inr ⟨⟨?_, by simp⟩, by simp [writeBytes, hu, he]⟩
        have := hgt.1
        simp; omega
    · exact .inr ⟨⟨by simp; omega, by simp⟩, by simp [writeBytes, memWrite_of_ge ha]⟩

/-! ### The call stack -/

/-- All a push can answer. -/
theorem push_cases (s : State) (a : Word) :
    (s.stack.length < 24 ∧ push s a = .ok { s with stack := s.stack ++ [a] }) ∨
      (24 ≤ s.stack.length ∧ push s a = .error .stackOverflow) := by
  rcases Nat.lt_or_ge s.stack.length 24 with h | h
  · have : ¬24 ≤ s.stack.length := by omega
    exact .inl ⟨h, by simp [push, Config.stackCap, this]⟩
  · exact .inr ⟨h, by simp [push, Config.stackCap, h]⟩

theorem pop_of_append {s : State} {l : List Word} {a : Word} (h : s.stack = l ++ [a]) :
    pop s = .ok (a, { s with stack := l }) := by
  simp [pop, h]

theorem pop_of_nil {s : State} (h : s.stack = []) : pop s = .error .stackUnderflow := by
  simp [pop, h]

/-- All a pop can answer. -/
theorem pop_cases (s : State) :
    (∃ l a, s.stack = l ++ [a] ∧ pop s = .ok (a, { s with stack := l })) ∨
      (s.stack = [] ∧ pop s = .error .stackUnderflow) := by
  rcases List.eq_nil_or_concat s.stack with h | ⟨l, a, h⟩
  · exact .inr ⟨h, pop_of_nil h⟩
  · exact .inl ⟨l, a, by simpa using h, pop_of_append (by simpa using h)⟩

end Sys2Proof.Machine
end

