-- ==== Sys2Proof/Laws/Cycle.lean ====
section
/-!
SUPPORT. The laws of fetch, the guard, the step and the host events: what each can do, said once.
-/

namespace Sys2Proof.Machine

/-- All a fetch can answer. -/
theorem fetchWord_cases (s : State) :
    (s.pc.toNat ≤ 0xFFE ∧
        fetchWord s = .ok (wordOfBytes (Memory.get s.pc.toNat s.mem) (Memory.get (s.pc.toNat + 1) s.mem))) ∨
      (0xFFF ≤ s.pc.toNat ∧ fetchWord s = .error .outOfRangeAccess) := by
  unfold fetchWord
  rcases memRead_cases s s.pc.toNat with ⟨h, hr⟩ | ⟨h, hr⟩ <;> rw [hr]
  · rcases memRead_cases s (s.pc.toNat + 1) with ⟨h', hr'⟩ | ⟨h', hr'⟩ <;> rw [hr']
    · exact .inl ⟨by omega, rfl⟩
    · exact .inr ⟨by omega, rfl⟩
  · exact .inr ⟨by omega, rfl⟩

theorem fetchWord_of_reads {s : State} {hi lo : Byte} (h1 : memRead s s.pc.toNat = .ok hi)
    (h2 : memRead s (s.pc.toNat + 1) = .ok lo) : fetchWord s = .ok (wordOfBytes hi lo) := by
  simp [fetchWord, h1, h2]

/-- All a fetch with its decoding can answer. -/
theorem fetchInstr_cases (s : State) :
    (s.pc.toNat ≤ 0xFFE ∧ ∃ w, fetchWord s = .ok w ∧
        ((∃ i, decodeWord w = .ok i ∧ fetchInstr s = .ok i) ∨
          (∃ e, decodeWord w = .error e) ∧ fetchInstr s = .error .unknownOpcode)) ∨
      (0xFFF ≤ s.pc.toNat ∧ fetchWord s = .error .outOfRangeAccess ∧ fetchInstr s = .error .outOfRangeAccess) := by
  rcases fetchWord_cases s with ⟨h, hw⟩ | ⟨h, hw⟩
  · refine .inl ⟨h, _, hw, ?_⟩
    unfold fetchInstr
    rw [hw]
    cases hd : decodeWord (wordOfBytes (Memory.get s.pc.toNat s.mem) (Memory.get (s.pc.toNat + 1) s.mem)) with
    | ok i => exact .inl ⟨i, rfl, by simp only [hd]⟩
    | error e => exact .inr ⟨⟨e, rfl⟩, by simp only [hd]⟩
  · exact .inr ⟨h, hw, by simp [fetchInstr, hw]⟩

/-- An instruction was fetched only from PC at most 0xFFE. -/
theorem pc_le_of_fetchInstr {s : State} {i : Instr} (h : fetchInstr s = .ok i) : s.pc.toNat ≤ 0xFFE := by
  rcases fetchInstr_cases s with ⟨hp, -⟩ | ⟨-, -, he⟩
  · exact hp
  · rw [he] at h; cases h

theorem sparedByGuard_iff (i : Instr) : sparedByGuard i = true ↔ ∃ x, i = .awaitKey x := by
  cases i <;> simp [sparedByGuard]

/-- All the guard can do to a next state. -/
theorem stallGuard_cases (i : Instr) (s t : State) :
    ((t.fault = none ∧ t.pc = s.pc ∧ sparedByGuard i = false) ∧
        stallGuard i s (.next t) = .next { s with fault := some .stalledProgramCounter }) ∨
      (¬(t.fault = none ∧ t.pc = s.pc ∧ sparedByGuard i = false) ∧ stallGuard i s (.next t) = .next t) := by
  unfold stallGuard
  by_cases h : t.fault = none ∧ t.pc = s.pc ∧ sparedByGuard i = false
  · exact .inl ⟨h, by simp [h]⟩
  · exact .inr ⟨h, by simp only [h, if_false]⟩

/-- Every instruction ends by completing, or by fault entry in the state it began with. -/
theorem exec_commit (i : Instr) (s : State) : ∃ r : Except Fault State, exec i s = commit s r := by
  cases i <;> (unfold exec; dsimp only) <;> (delta execClearScreen execRet execJump execCall execSkipEqImm execSkipNeImm execSkipEqReg execSetImm execAddImm execMove execOr execAnd execXor execAddReg execSubReg execShiftRight execSubRegRev execShiftLeft execSkipNeReg execSetIndex execJumpOffset execRandom execDraw execSkipIfKey execSkipIfNotKey execReadDelayTimer execAwaitKey execSetDelayTimer execSetSoundTimer execAddToIndex execFontCharAddress execStoreBcd execBlockStore execBlockLoad; exact ⟨_, rfl⟩)

theorem step_dead {s : State} {f : Fault} (h : s.fault = some f) : step s = .fault f := by
  simp [step, cycle, h]

theorem step_fetch_error {s : State} {f : Fault} (h : s.fault = none) (hf : fetchInstr s = .error f) :
    step s = .next { s with fault := some f } := by
  simp [step, cycle, h, hf]

theorem step_fetch_ok {s : State} {i : Instr} (h : s.fault = none) (hf : fetchInstr s = .ok i) :
    step s = stallGuard i s (exec i s) := by
  simp [step, cycle, h, hf]

/-- All that a step to a next state can be: fault entry at fetch or decode, fault entry by the guard, or what the
fetched instruction answered. -/
theorem step_cases {s t : State} (h : step s = .next t) :
    s.fault = none ∧
      ((∃ f, fetchInstr s = .error f ∧ t = { s with fault := some f }) ∨
        ∃ i u, fetchInstr s = .ok i ∧ exec i s = .next u ∧
          (((u.fault = none ∧ u.pc = s.pc ∧ sparedByGuard i = false) ∧
              t = { s with fault := some .stalledProgramCounter }) ∨
            (¬(u.fault = none ∧ u.pc = s.pc ∧ sparedByGuard i = false) ∧ t = u))) := by
  cases hf : s.fault with
  | some f => rw [step_dead hf] at h; cases h
  | none =>
    refine ⟨rfl, ?_⟩
    cases hi : fetchInstr s with
    | error f =>
      rw [step_fetch_error hf hi] at h
      exact .inl ⟨f, rfl, (Host.Outcome.next.inj h).symm⟩
    | ok i =>
      rw [step_fetch_ok hf hi] at h
      obtain ⟨u, hu⟩ : ∃ u, exec i s = .next u := by
        obtain ⟨r, hr⟩ := exec_commit i s
        cases r <;> exact ⟨_, hr⟩
      rw [hu] at h
      refine .inr ⟨i, u, rfl, hu, ?_⟩
      rcases stallGuard_cases i s u with ⟨hg, hs⟩ | ⟨hg, hs⟩ <;> rw [hs] at h
      · exact .inl ⟨hg, (Host.Outcome.next.inj h).symm⟩
      · exact .inr ⟨hg, (Host.Outcome.next.inj h).symm⟩

/-! ### Host events -/

theorem countDown_toNat (b : Byte) : (countDown b).toNat = b.toNat - 1 := by
  unfold countDown
  split
  · subst_vars; rfl
  · rename_i h
    have hb := b.isLt
    have : b.toNat ≠ 0 := fun h' => h (BitVec.eq_of_toNat_eq (by simpa using h'))
    rw [BitVec.toNat_sub_of_le (by rw [BitVec.le_def]; simp; omega)]
    simp

theorem tick_live {s : State} (h : s.fault = none) :
    tick s = { s with dt := countDown s.dt, st := countDown s.st } := by
  simp [tick, tickWith, h, Config.tickSound]

theorem tick_dead {s : State} {f : Fault} (h : s.fault = some f) : tick s = s := by simp [tick, tickWith, h]

theorem keyEvent_live {s : State} (h : s.fault = none) (k : Option Nibble) : keyEvent k s = { s with key := k } := by
  simp [keyEvent, h]

theorem keyEvent_dead {s : State} {f : Fault} (h : s.fault = some f) (k : Option Nibble) : keyEvent k s = s := by
  simp [keyEvent, h]

theorem load_dead {s : State} {f : Fault} (h : s.fault = some f) (img : List Byte) : load img s = s := by
  simp [load, h]

/-- All that LOAD does to a live machine. -/
theorem load_cases {s : State} (h : s.fault = none) (img : List Byte) :
    (img.length ≤ 3584 ∧ BytesWritten s (load img s) 0x200 img) ∨
      (3584 < img.length ∧ load img s = { s with fault := some .outOfRangeAccess }) := by
  rcases writeBytes_cases s Config.progBase img with ⟨hle, t, ht, hw⟩ | ⟨hgt, he⟩
  · have hl : load img s = t := by simp [load, h, ht]
    refine .inl ⟨?_, hl ▸ hw⟩
    rcases hle with hle | hle
    · simp only [Config.progBase] at hle; omega
    · simp [hle]
  · refine .inr ⟨?_, by simp [load, h, he]⟩
    have := hgt.1
    simp only [Config.progBase] at this; omega

end Sys2Proof.Machine
end

