-- ==== Sys2Proof/Laws/Flags.lean ====
section
/-!
SUPPORT. The laws of the flags and of the double write to Vx and VF.
-/

namespace Sys2Proof.Machine

@[simp] theorem flagByte_toNat (c : Bool) : (flagByte c).toNat = if c then 1 else 0 := by
  cases c <;> rfl

theorem carryOut_iff (a b : Byte) : carryOut a b = true ↔ 255 < a.toNat + b.toNat := by simp [carryOut]

theorem noBorrow_iff (a b : Byte) : noBorrow a b = true ↔ b.toNat ≤ a.toNat := by simp [noBorrow]

theorem lowBit_toNat (b : Byte) : (flagByte (lowBit b)).toNat = b.toNat % 2 := by
  have h : (b.getLsbD 0 = true) ↔ b.toNat % 2 = 1 := by simp [BitVec.getLsbD]
  rw [flagByte_toNat, lowBit]
  split
  · rw [h.1 ‹_›]
  · have : ¬b.toNat % 2 = 1 := fun h' => ‹¬_› (h.2 h')
    omega

theorem highBit_toNat (b : Byte) : (flagByte (highBit b)).toNat = b.toNat / 128 := by
  have hb := b.isLt
  have h : (b.getLsbD 7 = true) ↔ b.toNat / 128 % 2 = 1 := by
    simp [BitVec.getLsbD, Nat.testBit_eq_decide_div_mod_eq]
  rw [flagByte_toNat, highBit]
  split
  · have := h.1 ‹_›; omega
  · have : ¬b.toNat / 128 % 2 = 1 := fun h' => ‹¬_› (h.2 h')
    omega

theorem getV_resultThenFlag (s : State) (x : Nibble) (r : Byte) (f : Bool) (y : Nibble) :
    (resultThenFlag s x r f).getV y = if y = 15#4 then flagByte f else if y = x then r else s.getV y := by
  simp [resultThenFlag, State.getV_setV, vfIndex]

theorem getV_flagThenResult (s : State) (x : Nibble) (r : Byte) (f : Bool) (y : Nibble) :
    (flagThenResult s x r f).getV y = if y = x then r else if y = 15#4 then flagByte f else s.getV y := by
  simp [flagThenResult, State.getV_setV, vfIndex]

/-- Both orders of the two writes change registers only. -/
theorem resultThenFlag_rest (s : State) (x : Nibble) (r : Byte) (f : Bool) :
    resultThenFlag s x r f = { s with v := (resultThenFlag s x r f).v } := rfl

theorem flagThenResult_rest (s : State) (x : Nibble) (r : Byte) (f : Bool) :
    flagThenResult s x r f = { s with v := (flagThenResult s x r f).v } := rfl

/-- As the spec sets the order (R126): in the arithmetic instructions the flag is written last. -/
@[simp] theorem writeArith_config (s : State) (x : Nibble) (r : Byte) (f : Bool) :
    writeArith Config.vfWriteOrder s x r f = resultThenFlag s x r f := rfl

/-- As the spec sets the order (R126): in the shifts the result is written last. -/
@[simp] theorem writeShift_config (s : State) (x : Nibble) (r : Byte) (f : Bool) :
    writeShift Config.vfWriteOrder s x r f = flagThenResult s x r f := rfl

/-- With another destination than VF the order cannot be seen (R126). -/
theorem order_unseen (s : State) {x : Nibble} (hx : x ≠ 15#4) (r : Byte) (f : Bool) (y : Nibble) :
    (resultThenFlag s x r f).getV y = (flagThenResult s x r f).getV y := by
  rw [getV_resultThenFlag, getV_flagThenResult]
  by_cases h : y = x
  · rw [if_neg (h ▸ hx), if_pos h, if_pos h]
  · rw [if_neg h, if_neg h]

end Sys2Proof.Machine
end

