-- ==== Sys2Proof/Laws/Operands.lean ====
section
/-!
SUPPORT. The laws of the operand forms.
-/

namespace Sys2Proof.Machine

@[simp] theorem addrOf_toNat (nnn : Addr12) : (addrOf nnn).toNat = nnn.toNat := by
  have := nnn.isLt
  simp [addrOf]; omega

@[simp] theorem byteToWord_toNat (b : Byte) : (byteToWord b).toNat = b.toNat := by
  have := b.isLt
  simp [byteToWord]; omega

@[simp] theorem keyToByte_toNat (k : Nibble) : (keyToByte k).toNat = k.toNat := by
  have := k.isLt
  simp [keyToByte]; omega

@[simp] theorem dataAddr_zero (s : State) : dataAddr s 0 = s.idx.toNat := rfl

theorem addrOf_eq (nnn : Addr12) : addrOf nnn = BitVec.ofNat 16 nnn.toNat := by
  apply BitVec.eq_of_toNat_eq
  have := nnn.isLt
  simp; omega

/-- The target of jump-offset is the exact sum. -/
theorem jumpOffset_toNat (nnn : Addr12) (b : Byte) : (addrOf nnn + byteToWord b).toNat = nnn.toNat + b.toNat := by
  have := nnn.isLt
  have := b.isLt
  simp; omega

theorem bcdDigits_toNat (a : Byte) :
    (bcdDigits a).map BitVec.toNat = [a.toNat / 100, a.toNat / 10 % 10, a.toNat % 10] := by
  simp [bcdDigits]

theorem isPressed_iff (s : State) (b : Byte) :
    isPressed s b = true ↔ ∃ k, s.key = some k ∧ k.toNat = b.toNat := by
  unfold isPressed
  cases s.key with
  | none => simp
  | some k =>
    simp only [beq_iff_eq, Option.some.injEq]
    constructor
    · rintro rfl
      exact ⟨k, rfl, (keyToByte_toNat k).symm⟩
    · rintro ⟨j, rfl, h⟩
      exact BitVec.eq_of_toNat_eq (by rw [keyToByte_toNat, h])

@[simp] theorem registersFrom_length (s : State) (j n : Nat) : (registersFrom s j n).length = n := by
  induction n generalizing j with
  | zero => rfl
  | succ n ih => simp [registersFrom, ih]

theorem registersFrom_getD (s : State) (j n k : Nat) (h : k < n) :
    (registersFrom s j n).getD k 0 = s.getV (BitVec.ofNat 4 (j + k)) := by
  induction n generalizing j k with
  | zero => omega
  | succ n ih =>
    cases k with
    | zero => simp [registersFrom]
    | succ k => simpa [registersFrom, Nat.add_assoc, Nat.add_comm 1 k] using ih (j + 1) k (by omega)

/-- A register after bytes were put into the registers from `j` on, none of them above VF. -/
theorem getV_setRegistersFrom (s : State) (j : Nat) (bs : List Byte) (h : j + bs.length ≤ 16) (y : Nibble) :
    (setRegistersFrom s j bs).getV y =
      if j ≤ y.toNat ∧ y.toNat < j + bs.length then bs.getD (y.toNat - j) 0 else s.getV y := by
  induction bs generalizing s j with
  | nil => rw [if_neg (by simp)]; rfl
  | cons b bs ih =>
    have hl : (b :: bs).length = bs.length + 1 := rfl
    rw [hl] at h ⊢
    have hj : (BitVec.ofNat 4 j).toNat = j := by simp; omega
    rw [setRegistersFrom, ih _ _ (by omega), State.getV_setV]
    by_cases h1 : y.toNat = j
    · have h2 : y = BitVec.ofNat 4 j := BitVec.eq_of_toNat_eq (by rw [hj, h1])
      rw [if_neg (by omega), if_pos h2, if_pos (by omega), h1]
      simp
    · have h2 : y ≠ BitVec.ofNat 4 j := fun h => h1 (by rw [h, hj])
      by_cases h3 : j + 1 ≤ y.toNat ∧ y.toNat < j + 1 + bs.length
      · obtain ⟨k, hk⟩ : ∃ k, y.toNat = j + 1 + k := ⟨y.toNat - (j + 1), by omega⟩
        have e1 : j + 1 + k - (j + 1) = k := by omega
        have e2 : j + 1 + k - j = k + 1 := by omega
        rw [if_pos h3, if_pos (by omega), hk, e1, e2]
        simp
      · rw [if_neg h3, if_neg h2, if_neg (by omega)]

/-- Putting bytes into registers changes nothing else. -/
theorem setRegistersFrom_rest (s : State) (j : Nat) (bs : List Byte) :
    setRegistersFrom s j bs = { s with v := (setRegistersFrom s j bs).v } := by
  induction bs generalizing s j with
  | nil => rfl
  | cons b bs ih => rw [setRegistersFrom, ih]; rfl

theorem indexAfterBlock_toNat (inc : MemIncrement) (i0 : Word) (x : Nibble) :
    (indexAfterBlock inc i0 x).toNat = if inc = .none then i0.toNat else (i0.toNat + x.toNat + 1) % 65536 := by
  cases inc <;> simp [indexAfterBlock]

end Sys2Proof.Machine
end

