-- ==== Sys2Proof/Laws/Display.lean ====
section
/-!
SUPPORT. The laws of the display's cells and of one pixel and one row of the blitter.
-/

namespace Sys2Proof.Machine

@[simp] theorem Framebuffer.cell_clear (r : Fin 32) (c : Fin 64) :
    Framebuffer.clear.cell r c = false := by
  simp [Framebuffer.cell, Framebuffer.clear]

theorem Framebuffer.cell_setCell (f : Framebuffer) (r r' : Fin 32) (c c' : Fin 64) (b : Bool) :
    (f.setCell r c b).cell r' c' = if r' = r ∧ c' = c then b else f.cell r' c' := by
  unfold Framebuffer.cell Framebuffer.setCell
  by_cases hr : r = r'
  · subst hr
    by_cases hc : c = c'
    · subst hc; simp
    · have : (c : Nat) ≠ c' := fun h => hc (Fin.ext h)
      simp [this, Ne.symm hc]
  · have : (r : Nat) ≠ r' := fun h => hr (Fin.ext h)
    simp [this, Ne.symm hr]

/-- Displays with the same cells are the same. -/
theorem Framebuffer.ext_cell {f g : Framebuffer} (h : ∀ r c, f.cell r c = g.cell r c) : f = g := by
  apply Vector.ext
  intro r hr
  apply Vector.ext
  intro c hc
  exact h ⟨r, hr⟩ ⟨c, hc⟩

/-- All that one pixel does. -/
theorem drawPixel_cell (bit : Bool) (x y : Nat) (acc : Framebuffer × Bool) (r : Fin 32)
    (c : Fin 64) :
    (drawPixel bit x y acc).1.cell r c =
      (acc.1.cell r c ^^ (decide (r = wrapRow y ∧ c = wrapCol x) && bit)) := by
  simp only [drawPixel, Framebuffer.cell_setCell]
  split
  · rename_i h; simp [h]
  · rename_i h; simp [h]

theorem drawPixel_collided (bit : Bool) (x y : Nat) (acc : Framebuffer × Bool) :
    (drawPixel bit x y acc).2 = (acc.2 || (acc.1.cell (wrapRow y) (wrapCol x) && bit)) := rfl

end Sys2Proof.Machine
end

