-- ==== Sys2Proof/Laws/Frames.lean ====
section
/-!
SUPPORT. How the frames of Sys2Proof/Safety.lean are shown: a part unchanged in a record update reads the same.
-/

namespace Sys2Proof.Machine

theorem SameRegsExcept.of_v {xs : List Nibble} {s t : State} (h : t.v = s.v) : SameRegsExcept xs s t :=
  fun y _ => State.getV_congr h y

theorem SameExcept.mono {ps qs : List Part} {s t : State} (h : SameExcept ps s t) (hs : ∀ p ∈ ps, p ∈ qs) :
    SameExcept qs s t := fun p hp => h p fun hm => hp (hs p hm)

/-- Only registers and PC differ. -/
theorem SameExcept.of_regs (s : State) (v : Vector Byte 16) (pc : Word) (ps : List Part) :
    SameExcept ps s { s with v := v, pc := pc } := by
  intro p _
  cases p <;> first | rfl | exact fun a => memRead_congr rfl a

theorem SameExcept.of_idx (s : State) (a : Word) (v : Vector Byte 16) (pc : Word) (ps : List Part) (h : .idx ∈ ps) :
    SameExcept ps s { s with idx := a, v := v, pc := pc } := by
  intro p hp
  cases p <;> first | rfl | exact fun a => memRead_congr rfl a | exact absurd h hp

theorem SameExcept.of_stack (s : State) (l : List Word) (pc : Word) (ps : List Part) (h : .stack ∈ ps) :
    SameExcept ps s { s with stack := l, pc := pc } := by
  intro p hp
  cases p <;> first | rfl | exact fun a => memRead_congr rfl a | exact absurd h hp

theorem SameExcept.of_fault (s : State) (f : Option Fault) (ps : List Part) (h : .fault ∈ ps) :
    SameExcept ps s { s with fault := f } := by
  intro p hp
  cases p <;> first | rfl | exact fun a => memRead_congr rfl a | exact absurd h hp

end Sys2Proof.Machine
end

