-- ==== Sys2Proof/Laws/PerInstr.lean ====
section
/-!
SUPPORT. Per instruction: the word of an instruction matches the row of the opcode map (spec/30_encoding.md R64) that
has its name.
-/

namespace Sys2Proof.Laws.EncodesRow

/-- The instruction's word matches its own row of R64. -/
def Statement (i : Instr) : Prop := ∃ r ∈ opcodeMap, r.mnemonic = i.mnemonic ∧ r.matches (encode i) = true

/-- Format A under the mask of its top nibble. -/
theorem matches_formatA (op : Nibble) (nnn : Addr12) : formatA op nnn &&& 0xF000 = formatA op 0 := by
  have h : (op ++ nnn) &&& (BitVec.allOnes 4 ++ 0#12) = op ++ 0#12 := by
    rw [BitVec.and_append, BitVec.and_allOnes, BitVec.and_zero]
  exact h

/-- Format K under the mask of its top nibble. -/
theorem matches_formatK (op x : Nibble) (kk : Byte) : formatK op x kk &&& 0xF000 = formatK op 0 0 := by
  have h : ((op ++ x) ++ kk) &&& ((BitVec.allOnes 4 ++ 0#4) ++ 0#8) = (op ++ 0#4) ++ 0#8 := by
    rw [BitVec.and_append, BitVec.and_append, BitVec.and_allOnes, BitVec.and_zero, BitVec.and_zero]
  exact h

/-- Format F under the mask of its top nibble and function byte. -/
theorem matches_formatF (op x : Nibble) (fn : Byte) : formatK op x fn &&& 0xF0FF = formatK op 0 fn := by
  have h : ((op ++ x) ++ fn) &&& ((BitVec.allOnes 4 ++ 0#4) ++ BitVec.allOnes 8) = (op ++ 0#4) ++ fn := by
    rw [BitVec.and_append, BitVec.and_append, BitVec.and_allOnes, BitVec.and_allOnes, BitVec.and_zero]
  exact h

/-- Format R under the mask of its top nibble and sub-opcode. -/
theorem matches_formatR (op x y sub : Nibble) : formatR op x y sub &&& 0xF00F = formatR op 0 0 sub := by
  have h : ((op ++ x) ++ (y ++ sub)) &&& ((BitVec.allOnes 4 ++ 0#4) ++ (0#4 ++ BitVec.allOnes 4)) =
      (op ++ 0#4) ++ (0#4 ++ sub) := by
    rw [BitVec.and_append, BitVec.and_append, BitVec.and_append]
    simp only [BitVec.and_allOnes, BitVec.and_zero]
  exact h

/-- Format D under the mask of its top nibble. -/
theorem matches_formatD (op x y n : Nibble) : formatR op x y n &&& 0xF000 = formatR op 0 0 0 := by
  have h : ((op ++ x) ++ (y ++ n)) &&& ((BitVec.allOnes 4 ++ 0#4) ++ (0#4 ++ 0#4)) =
      (op ++ 0#4) ++ (0#4 ++ 0#4) := by
    rw [BitVec.and_append, BitVec.and_append, BitVec.and_append]
    simp only [BitVec.and_allOnes, BitVec.and_zero]
  exact h

theorem clearScreen : Statement .clearScreen :=
  ⟨⟨"clear-screen", 0x00E0, 0xFFFF⟩, by decide, rfl, by decide⟩

theorem ret : Statement .ret :=
  ⟨⟨"return", 0x00EE, 0xFFFF⟩, by decide, rfl, by decide⟩

theorem jump (nnn : Addr12) : Statement (.jump nnn) := by
  refine ⟨⟨"jump", 0x1000, 0xF000⟩, by decide, rfl, ?_⟩
  simp only [OpcodeRow.matches, encode, matches_formatA]
  decide

theorem call (nnn : Addr12) : Statement (.call nnn) := by
  refine ⟨⟨"call", 0x2000, 0xF000⟩, by decide, rfl, ?_⟩
  simp only [OpcodeRow.matches, encode, matches_formatA]
  decide

theorem skipEqImm (x : Nibble) (kk : Byte) : Statement (.skipEqImm x kk) := by
  refine ⟨⟨"skip-eq-imm", 0x3000, 0xF000⟩, by decide, rfl, ?_⟩
  simp only [OpcodeRow.matches, encode, matches_formatK]
  decide

theorem skipNeImm (x : Nibble) (kk : Byte) : Statement (.skipNeImm x kk) := by
  refine ⟨⟨"skip-ne-imm", 0x4000, 0xF000⟩, by decide, rfl, ?_⟩
  simp only [OpcodeRow.matches, encode, matches_formatK]
  decide

theorem skipEqReg (x : Nibble) (y : Nibble) : Statement (.skipEqReg x y) := by
  refine ⟨⟨"skip-eq-reg", 0x5000, 0xF00F⟩, by decide, rfl, ?_⟩
  simp only [OpcodeRow.matches, encode, matches_formatR]
  decide

theorem setImm (x : Nibble) (kk : Byte) : Statement (.setImm x kk) := by
  refine ⟨⟨"set-imm", 0x6000, 0xF000⟩, by decide, rfl, ?_⟩
  simp only [OpcodeRow.matches, encode, matches_formatK]
  decide

theorem addImm (x : Nibble) (kk : Byte) : Statement (.addImm x kk) := by
  refine ⟨⟨"add-imm", 0x7000, 0xF000⟩, by decide, rfl, ?_⟩
  simp only [OpcodeRow.matches, encode, matches_formatK]
  decide

theorem move (x : Nibble) (y : Nibble) : Statement (.move x y) := by
  refine ⟨⟨"move", 0x8000, 0xF00F⟩, by decide, rfl, ?_⟩
  simp only [OpcodeRow.matches, encode, matches_formatR]
  decide

theorem or (x : Nibble) (y : Nibble) : Statement (.or x y) := by
  refine ⟨⟨"or", 0x8001, 0xF00F⟩, by decide, rfl, ?_⟩
  simp only [OpcodeRow.matches, encode, matches_formatR]
  decide

theorem and (x : Nibble) (y : Nibble) : Statement (.and x y) := by
  refine ⟨⟨"and", 0x8002, 0xF00F⟩, by decide, rfl, ?_⟩
  simp only [OpcodeRow.matches, encode, matches_formatR]
  decide

theorem xor (x : Nibble) (y : Nibble) : Statement (.xor x y) := by
  refine ⟨⟨"xor", 0x8003, 0xF00F⟩, by decide, rfl, ?_⟩
  simp only [OpcodeRow.matches, encode, matches_formatR]
  decide

theorem addReg (x : Nibble) (y : Nibble) : Statement (.addReg x y) := by
  refine ⟨⟨"add-reg", 0x8004, 0xF00F⟩, by decide, rfl, ?_⟩
  simp only [OpcodeRow.matches, encode, matches_formatR]
  decide

theorem subReg (x : Nibble) (y : Nibble) : Statement (.subReg x y) := by
  refine ⟨⟨"sub-reg", 0x8005, 0xF00F⟩, by decide, rfl, ?_⟩
  simp only [OpcodeRow.matches, encode, matches_formatR]
  decide

theorem shiftRight (x : Nibble) (y : Nibble) : Statement (.shiftRight x y) := by
  refine ⟨⟨"shift-right", 0x8006, 0xF00F⟩, by decide, rfl, ?_⟩
  simp only [OpcodeRow.matches, encode, matches_formatR]
  decide

theorem subRegRev (x : Nibble) (y : Nibble) : Statement (.subRegRev x y) := by
  refine ⟨⟨"sub-reg-rev", 0x8007, 0xF00F⟩, by decide, rfl, ?_⟩
  simp only [OpcodeRow.matches, encode, matches_formatR]
  decide

theorem shiftLeft (x : Nibble) (y : Nibble) : Statement (.shiftLeft x y) := by
  refine ⟨⟨"shift-left", 0x800E, 0xF00F⟩, by decide, rfl, ?_⟩
  simp only [OpcodeRow.matches, encode, matches_formatR]
  decide

theorem skipNeReg (x : Nibble) (y : Nibble) : Statement (.skipNeReg x y) := by
  refine ⟨⟨"skip-ne-reg", 0x9000, 0xF00F⟩, by decide, rfl, ?_⟩
  simp only [OpcodeRow.matches, encode, matches_formatR]
  decide

theorem setIndex (nnn : Addr12) : Statement (.setIndex nnn) := by
  refine ⟨⟨"set-index", 0xA000, 0xF000⟩, by decide, rfl, ?_⟩
  simp only [OpcodeRow.matches, encode, matches_formatA]
  decide

theorem jumpOffset (nnn : Addr12) : Statement (.jumpOffset nnn) := by
  refine ⟨⟨"jump-offset", 0xB000, 0xF000⟩, by decide, rfl, ?_⟩
  simp only [OpcodeRow.matches, encode, matches_formatA]
  decide

theorem random (x : Nibble) (kk : Byte) : Statement (.random x kk) := by
  refine ⟨⟨"random", 0xC000, 0xF000⟩, by decide, rfl, ?_⟩
  simp only [OpcodeRow.matches, encode, matches_formatK]
  decide

theorem draw (x : Nibble) (y : Nibble) (n : Nibble) : Statement (.draw x y n) := by
  refine ⟨⟨"draw", 0xD000, 0xF000⟩, by decide, rfl, ?_⟩
  simp only [OpcodeRow.matches, encode, matches_formatD]
  decide

theorem skipIfKey (x : Nibble) : Statement (.skipIfKey x) := by
  refine ⟨⟨"skip-if-key", 0xE09E, 0xF0FF⟩, by decide, rfl, ?_⟩
  simp only [OpcodeRow.matches, encode, matches_formatF]
  decide

theorem skipIfNotKey (x : Nibble) : Statement (.skipIfNotKey x) := by
  refine ⟨⟨"skip-if-not-key", 0xE0A1, 0xF0FF⟩, by decide, rfl, ?_⟩
  simp only [OpcodeRow.matches, encode, matches_formatF]
  decide

theorem readDelayTimer (x : Nibble) : Statement (.readDelayTimer x) := by
  refine ⟨⟨"read-delay-timer", 0xF007, 0xF0FF⟩, by decide, rfl, ?_⟩
  simp only [OpcodeRow.matches, encode, matches_formatF]
  decide

theorem awaitKey (x : Nibble) : Statement (.awaitKey x) := by
  refine ⟨⟨"await-key", 0xF00A, 0xF0FF⟩, by decide, rfl, ?_⟩
  simp only [OpcodeRow.matches, encode, matches_formatF]
  decide

theorem setDelayTimer (x : Nibble) : Statement (.setDelayTimer x) := by
  refine ⟨⟨"set-delay-timer", 0xF015, 0xF0FF⟩, by decide, rfl, ?_⟩
  simp only [OpcodeRow.matches, encode, matches_formatF]
  decide

theorem setSoundTimer (x : Nibble) : Statement (.setSoundTimer x) := by
  refine ⟨⟨"set-sound-timer", 0xF018, 0xF0FF⟩, by decide, rfl, ?_⟩
  simp only [OpcodeRow.matches, encode, matches_formatF]
  decide

theorem addToIndex (x : Nibble) : Statement (.addToIndex x) := by
  refine ⟨⟨"add-to-index", 0xF01E, 0xF0FF⟩, by decide, rfl, ?_⟩
  simp only [OpcodeRow.matches, encode, matches_formatF]
  decide

theorem fontCharAddress (x : Nibble) : Statement (.fontCharAddress x) := by
  refine ⟨⟨"font-char-address", 0xF029, 0xF0FF⟩, by decide, rfl, ?_⟩
  simp only [OpcodeRow.matches, encode, matches_formatF]
  decide

theorem storeBcd (x : Nibble) : Statement (.storeBcd x) := by
  refine ⟨⟨"store-bcd", 0xF033, 0xF0FF⟩, by decide, rfl, ?_⟩
  simp only [OpcodeRow.matches, encode, matches_formatF]
  decide

theorem blockStore (x : Nibble) : Statement (.blockStore x) := by
  refine ⟨⟨"block-store", 0xF055, 0xF0FF⟩, by decide, rfl, ?_⟩
  simp only [OpcodeRow.matches, encode, matches_formatF]
  decide

theorem blockLoad (x : Nibble) : Statement (.blockLoad x) := by
  refine ⟨⟨"block-load", 0xF065, 0xF0FF⟩, by decide, rfl, ?_⟩
  simp only [OpcodeRow.matches, encode, matches_formatF]
  decide

end Sys2Proof.Laws.EncodesRow
end

