-- ==== Sys2Proof/Tests/Slice0.lean ====
section
/-!
SUPPORT. The model's own tests. Expected values are those of spec/95_test_vectors.md (each test names its row) and of the
encoding table of spec/30_encoding.md R64. The `witness` theorems show inputs that meet the hypotheses of a statement of
Sys2Proof/Certificates/Slice0/Obligations.lean, clause by clause, at the edges of their ranges.
-/

namespace Sys2Proof.Tests

open Sys2Proof Sys2Proof.Machine

/-! ### Helpers -/

/-- A state with registers set. -/
def withRegs (s : State) (regs : List (Nibble × Byte)) : State := regs.foldl (fun s r => s.setV r.1 r.2) s

/-- The reset state with registers set and a word at 0x200. -/
def start (w : Nat) (regs : List (Nibble × Byte)) : State := (withRegs State.reset regs).withFetchWord 16 w

/-- The reset state with another PC and the word there. -/
def startAt (pc : Word) (w : Nat) : State := State.withFetchWord { State.reset with pc := pc } 16 w

/-- Bytes put into memory. -/
def withBytes (s : State) (a : Nat) (bs : List Byte) : State := { s with mem := placeBytes s.mem a bs }

/-- What the next state of a step shows. -/
def see {α : Type} (r : Result) (f : State → α) : Option α :=
  match r with
  | .next t => some (f t)
  | .fault _ => none
  | .refused _ => none

/-- One register, PC and FAULT. -/
def oneReg (x : Nibble) (t : State) : Nat × Nat × Option Fault := ((t.getV x).toNat, t.pc.toNat, t.fault)

/-- Two registers, PC and FAULT. -/
def twoRegs (x y : Nibble) (t : State) : Nat × Nat × Nat × Option Fault :=
  ((t.getV x).toNat, (t.getV y).toNat, t.pc.toNat, t.fault)

/-- PC and FAULT. -/
def pcFault (t : State) : Nat × Option Fault := (t.pc.toNat, t.fault)

/-- PC, FAULT and the stack. -/
def pcStack (t : State) : Nat × Option Fault × List Nat := (t.pc.toNat, t.fault, t.stack.map BitVec.toNat)

/-- I, PC and FAULT. -/
def idxPc (t : State) : Nat × Nat × Option Fault := (t.idx.toNat, t.pc.toNat, t.fault)

/-- `n` bytes of memory from `a`, PC and FAULT. -/
def bytesAt (a n : Nat) (t : State) : List Nat × Nat × Option Fault :=
  ((List.range n).map fun k => (Memory.get (a + k) t.mem).toNat, t.pc.toNat, t.fault)

/-- The cells at 1 among those listed, VF, PC and FAULT. -/
def cellsAt (cs : List (Fin 32 × Fin 64)) (t : State) : List Bool × Nat × Nat × Option Fault :=
  (cs.map fun c => t.fb.cell c.1 c.2, (t.getV 15).toNat, t.pc.toNat, t.fault)

/-- A machine that has faulted. -/
def dead : State := { start 0x6105 [] with fault := some .unknownOpcode }

/-! ### Decoding: one word of every row of R64, written from its pattern -/

theorem test_decode_clear_screen : decodeWord 0x00E0 = .ok .clearScreen := by decide
theorem test_decode_return : decodeWord 0x00EE = .ok .ret := by decide
theorem test_decode_jump : decodeWord 0x1ABC = .ok (.jump 0xABC) := by decide
theorem test_decode_call : decodeWord 0x2F01 = .ok (.call 0xF01) := by decide
theorem test_decode_skip_eq_imm : decodeWord 0x3A5C = .ok (.skipEqImm 0xA 0x5C) := by decide
theorem test_decode_skip_ne_imm : decodeWord 0x4B6D = .ok (.skipNeImm 0xB 0x6D) := by decide
theorem test_decode_skip_eq_reg : decodeWord 0x5AB0 = .ok (.skipEqReg 0xA 0xB) := by decide
theorem test_decode_set_imm : decodeWord 0x6A3C = .ok (.setImm 0xA 0x3C) := by decide
theorem test_decode_add_imm : decodeWord 0x7203 = .ok (.addImm 2 3) := by decide
theorem test_decode_move : decodeWord 0x8140 = .ok (.move 1 4) := by decide
theorem test_decode_or : decodeWord 0x8121 = .ok (.or 1 2) := by decide
theorem test_decode_and : decodeWord 0x8122 = .ok (.and 1 2) := by decide
theorem test_decode_xor : decodeWord 0x8123 = .ok (.xor 1 2) := by decide
theorem test_decode_add_reg : decodeWord 0x8AB4 = .ok (.addReg 0xA 0xB) := by decide
theorem test_decode_sub_reg : decodeWord 0x8125 = .ok (.subReg 1 2) := by decide
theorem test_decode_shift_right : decodeWord 0x8126 = .ok (.shiftRight 1 2) := by decide
theorem test_decode_sub_reg_rev : decodeWord 0x8127 = .ok (.subRegRev 1 2) := by decide
theorem test_decode_shift_left : decodeWord 0x812E = .ok (.shiftLeft 1 2) := by decide
theorem test_decode_skip_ne_reg : decodeWord 0x9AB0 = .ok (.skipNeReg 0xA 0xB) := by decide
theorem test_decode_set_index : decodeWord 0xA2F0 = .ok (.setIndex 0x2F0) := by decide
theorem test_decode_jump_offset : decodeWord 0xBFED = .ok (.jumpOffset 0xFED) := by decide
theorem test_decode_random : decodeWord 0xC30F = .ok (.random 3 0x0F) := by decide
theorem test_decode_draw : decodeWord 0xDAB2 = .ok (.draw 0xA 0xB 2) := by decide
theorem test_decode_skip_if_key : decodeWord 0xE49E = .ok (.skipIfKey 4) := by decide
theorem test_decode_skip_if_not_key : decodeWord 0xE4A1 = .ok (.skipIfNotKey 4) := by decide
theorem test_decode_read_delay_timer : decodeWord 0xF307 = .ok (.readDelayTimer 3) := by decide
theorem test_decode_await_key : decodeWord 0xF50A = .ok (.awaitKey 5) := by decide
theorem test_decode_set_delay_timer : decodeWord 0xF315 = .ok (.setDelayTimer 3) := by decide
theorem test_decode_set_sound_timer : decodeWord 0xF318 = .ok (.setSoundTimer 3) := by decide
theorem test_decode_add_to_index : decodeWord 0xF21E = .ok (.addToIndex 2) := by decide
theorem test_decode_font_char_address : decodeWord 0xF029 = .ok (.fontCharAddress 0) := by decide
theorem test_decode_store_bcd : decodeWord 0xF533 = .ok (.storeBcd 5) := by decide
theorem test_decode_block_store : decodeWord 0xF255 = .ok (.blockStore 2) := by decide
theorem test_decode_block_load : decodeWord 0xF265 = .ok (.blockLoad 2) := by decide

/-! ### Ill-formed words: one of each class of R66, refused by the check and by the decoder (X5 to X14) -/

/-- The words are no instruction, and the decoder names each. -/
def refusedWords (ws : List Word) : Bool :=
  ws.all fun w => !wordDefined w && decide (decodeWord w = .error (.unknownOpcode w))

theorem test_unknown_top_0 : refusedWords [0x0000, 0x00E1, 0x00EF, 0x0123, 0x01E0] = true := by decide
theorem test_unknown_top_5_9 : refusedWords [0x5121, 0x512F, 0x9121, 0x912F] = true := by decide
theorem test_unknown_top_8 :
    refusedWords [0x8128, 0x8129, 0x812A, 0x812B, 0x812C, 0x812D, 0x812F] = true := by decide
theorem test_unknown_top_E : refusedWords [0xE49F, 0xE4A2, 0xE400] = true := by decide
theorem test_unknown_top_F : refusedWords [0xF300, 0xF3FF, 0xF30B, 0xF366] = true := by decide
theorem test_defined_words : [0x00E0, 0x1000, 0x5120, 0x812E, 0xE4A1, 0xF365].all wordDefined = true := by decide
theorem test_truncated : decode [0x00] = .error .truncated ∧ decode [] = .error .truncated := by decide

/-- The table's numbering: bit 0 is the least significant bit of the word; the bytes lie big-endian (R43). -/
theorem test_table_word : decodeTableWord 16 0x1234 = some (.jump 0x234) ∧ decodeTableWord 16 0x3412 = some (.skipEqImm 4 0x12) ∧
    decodeTableWord 16 0x0000 = none := by decide

/-! ### Fetch, decode, step (X1 to X19) -/

/-- X1, X2. -/
theorem test_big_endian :
    see (step (start 0x1234 [])) pcFault = some (0x234, none) ∧ see (step (start 0x3412 [])) pcFault = some (0x202, none) := by decide

/-- X5, X8. -/
theorem test_unknown_opcode :
    see (step (start 0x0000 [])) pcFault = some (0x200, some .unknownOpcode) ∧
      see (step (start 0x5121 [(1, 7), (2, 7)])) pcFault = some (0x200, some .unknownOpcode) := by decide

/-- X15, X16, X17. -/
theorem test_fetch_range :
    see (step (startAt 0xFFF 0x0000)) pcFault = some (0xFFF, some .outOfRangeAccess) ∧
      see (step (startAt 0x1000 0x0000)) pcFault = some (0x1000, some .outOfRangeAccess) ∧
      see (step (startAt 0xFFE 0x00E0)) pcFault = some (0x1000, none) := by decide

/-- X18. -/
theorem test_odd_pc :
    see (step (startAt 0x201 0x6105)) (oneReg 1) = some (5, 0x203, none) := by decide

/-! ### Control flow (T1 to T26) -/

/-- T1, T2. -/
theorem test_return :
    see (step { startAt 0x300 0x00EE with stack := [0x202] }) pcStack = some (0x202, none, []) ∧
      see (step (startAt 0x300 0x00EE)) pcStack = some (0x300, some .stackUnderflow, []) := by decide

/-- T3. -/
theorem test_return_stalls :
    see (step { startAt 0x202 0x00EE with stack := [0x400, 0x202] }) pcStack =
      some (0x202, some .stalledProgramCounter, [0x400, 0x202]) := by decide

/-- T4, T6. -/
theorem test_jump :
    see (step (start 0x1ABC [])) pcFault = some (0xABC, none) ∧
      see (step (start 0x1FFF [])) pcFault = some (0xFFF, none) := by decide

/-- T5. -/
theorem test_jump_stalls :
    see (step (start 0x1200 [])) pcFault = some (0x200, some .stalledProgramCounter) := by decide

/-- T7, T11. -/
theorem test_call :
    see (step (start 0x2300 [])) pcStack = some (0x300, none, [0x202]) ∧
      see (step (startAt 0xFFE 0x2300)) pcStack = some (0x300, none, [0x1000]) := by decide

/-- T8, T10, T9. -/
theorem test_call_faults :
    see (step { start 0x2300 [] with stack := List.replicate 24 0 }) pcFault = some (0x200, some .stackOverflow) ∧
      see (step { start 0x2200 [] with stack := List.replicate 24 0 }) pcFault = some (0x200, some .stackOverflow) ∧
      see (step (start 0x2200 [])) pcStack = some (0x200, some .stalledProgramCounter, []) := by decide

/-- T12, T13. -/
theorem test_skip_eq_imm :
    see (step (start 0x332A [(3, 0x2A)])) pcFault = some (0x204, none) ∧ see (step (start 0x332B [(3, 0x2A)])) pcFault = some (0x202, none) := by decide

/-- T14, T15. -/
theorem test_skip_ne_imm :
    see (step (start 0x432B [(3, 0x2A)])) pcFault = some (0x204, none) ∧ see (step (start 0x432A [(3, 0x2A)])) pcFault = some (0x202, none) := by decide

/-- T16, T17. -/
theorem test_skip_eq_reg :
    see (step (start 0x5330 [(3, 0x2A)])) pcFault = some (0x204, none) ∧ see (step (start 0x5120 [(1, 7), (2, 8)])) pcFault = some (0x202, none) := by decide

/-- T19, T20. -/
theorem test_skip_ne_reg :
    see (step (start 0x9120 [(1, 7), (2, 8)])) pcFault = some (0x204, none) ∧ see (step (start 0x9330 [(3, 0x2A)])) pcFault = some (0x202, none) := by decide

/-- T25, T23, T24. -/
theorem test_jump_offset :
    see (step (start 0xB300 [(0, 1)])) pcFault = some (0x301, none) ∧
      see (step (start 0xBFFF [(0, 0xFF)])) pcFault = some (0x10FE, none) ∧
      see (step (start 0xB1FE [(0, 2)])) pcFault = some (0x200, some .stalledProgramCounter) := by decide

/-! ### Registers (A1 to A35) -/

/-- A1. -/
theorem test_set_imm :
    see (step (start 0x6A3C [])) (oneReg 0xA) = some (0x3C, 0x202, none) := by decide

/-- A2, A3. -/
theorem test_add_imm :
    see (step (start 0x7203 [(2, 0xFE), (15, 0x55)])) (twoRegs 2 15) = some (1, 0x55, 0x202, none) ∧
      see (step (start 0x7F01 [(15, 0xFF)])) (oneReg 15) = some (0, 0x202, none) := by decide

/-- A4. -/
theorem test_move :
    see (step (start 0x8140 [(4, 0x99)])) (twoRegs 1 4) = some (0x99, 0x99, 0x202, none) := by decide

/-- A5. -/
theorem test_or :
    see (step (start 0x8121 [(1, 0xF0), (2, 0x0F), (15, 0x55)])) (twoRegs 1 15) = some (0xFF, 0x55, 0x202, none) := by decide

/-- A6. -/
theorem test_and :
    see (step (start 0x8122 [(1, 0xF3), (2, 0x3F), (15, 0x55)])) (twoRegs 1 15) = some (0x33, 0x55, 0x202, none) := by decide

/-- A7, A8. -/
theorem test_xor :
    see (step (start 0x8123 [(1, 0xFF), (2, 0x0F), (15, 0x55)])) (twoRegs 1 15) = some (0xF0, 0x55, 0x202, none) ∧
      see (step (start 0x8333 [(3, 0xAB)])) (oneReg 3) = some (0, 0x202, none) := by decide

/-- S2, A12, A11. -/
theorem test_add_reg :
    see (step (start 0x8124 [(1, 0xFF), (2, 1)])) (twoRegs 1 15) = some (0, 1, 0x202, none) ∧
      see (step (start 0x8124 [(1, 0x7F), (2, 0x80), (15, 1)])) (twoRegs 1 15) = some (0xFF, 0, 0x202, none) ∧
      see (step (start 0x8334 [(3, 0x90)])) (twoRegs 3 15) = some (0x20, 1, 0x202, none) := by decide

/-- A13 under each VF_WRITE_ORDER, A14. -/
theorem test_add_reg_vf :
    see (step (start 0x8F14 [(15, 0xF0), (1, 0x20)])) (oneReg 15) = some (1, 0x202, none) ∧
      see (step (start 0x81F4 [(1, 0x10), (15, 5)])) (twoRegs 1 15) = some (0x15, 0, 0x202, none) ∧
      (addRegWith .flagLast 15 1 (start 0 [(15, 0xF0), (1, 0x20)])).getV 15 = 1 ∧
      (addRegWith .resultLast 15 1 (start 0 [(15, 0xF0), (1, 0x20)])).getV 15 = 0x10 := by decide

/-- S4, S5, A15. -/
theorem test_sub_reg :
    see (step (start 0x8125 [(1, 5), (2, 1)])) (twoRegs 1 15) = some (4, 1, 0x202, none) ∧
      see (step (start 0x8125 [(1, 1), (2, 5), (15, 1)])) (twoRegs 1 15) = some (0xFC, 0, 0x202, none) ∧
      see (step (start 0x8125 [(1, 0x42), (2, 0x42)])) (twoRegs 1 15) = some (0, 1, 0x202, none) := by decide

/-- A18, A20. -/
theorem test_sub_reg_vf :
    see (step (start 0x8F15 [(15, 3), (1, 5)])) (oneReg 15) = some (0, 0x202, none) ∧
      see (step (start 0x8FF5 [(15, 7)])) (oneReg 15) = some (1, 0x202, none) ∧
      (subRegWith .resultLast 15 1 (start 0 [(15, 3), (1, 5)])).getV 15 = 0xFE := by decide

/-- A26, A27, A28. -/
theorem test_sub_reg_rev :
    see (step (start 0x8127 [(1, 1), (2, 5)])) (twoRegs 1 15) = some (4, 1, 0x202, none) ∧
      see (step (start 0x8127 [(1, 5), (2, 1)])) (twoRegs 1 15) = some (0xFC, 0, 0x202, none) ∧
      see (step (start 0x8127 [(1, 9), (2, 9)])) (twoRegs 1 15) = some (0, 1, 0x202, none) := by decide

/-- A21 for both SHIFT_SRC. -/
theorem test_shift_right :
    twoRegs 1 15 (shiftRightWith .asWritten .vx 1 2 (start 0 [(1, 5), (2, 0xF0)])) = (2, 1, 0x202, none) ∧
      twoRegs 1 15 (shiftRightWith .asWritten .vy 1 2 (start 0 [(1, 5), (2, 0xF0)])) = (0x78, 0, 0x202, none) := by decide

/-- A24, A25. -/
theorem test_shift_right_vf :
    oneReg 15 (shiftRightWith .asWritten .vx 15 15 (start 0 [(15, 7)])) = (3, 0x202, none) ∧
      oneReg 15 (shiftRightWith .flagLast .vx 15 15 (start 0 [(15, 7)])) = (1, 0x202, none) ∧
      oneReg 15 (shiftRightWith .asWritten .vy 15 1 (start 0 [(1, 7), (15, 0xAA)])) = (3, 0x202, none) := by decide

/-- A29 for both SHIFT_SRC. -/
theorem test_shift_left :
    twoRegs 1 15 (shiftLeftWith .asWritten .vx 1 2 (start 0 [(1, 0x81), (2, 0x0F)])) = (2, 1, 0x202, none) ∧
      twoRegs 1 15 (shiftLeftWith .asWritten .vy 1 2 (start 0 [(1, 0x81), (2, 0x0F)])) = (0x1E, 0, 0x202, none) := by decide

/-- A32. -/
theorem test_shift_left_vf :
    oneReg 15 (shiftLeftWith .asWritten .vx 15 15 (start 0 [(15, 0xC1)])) = (0x82, 0x202, none) ∧
      oneReg 15 (shiftLeftWith .resultLast .vx 15 15 (start 0 [(15, 0xC1)])) = (0x82, 0x202, none) ∧
      oneReg 15 (shiftLeftWith .flagLast .vx 15 15 (start 0 [(15, 0xC1)])) = (1, 0x202, none) := by decide

/-- A33, A35. -/
theorem test_random :
    oneReg 3 (randomWith 0xA7 3 0x0F (start 0 [])) = (7, 0x202, none) ∧
      oneReg 3 (randomWith 0x5A 3 0xFF (start 0 [])) = (0x5A, 0x202, none) := by decide

/-- A34: whatever the draw is. -/
theorem test_random_zero_mask : ∃ t, step (start 0xC300 [(3, 0x99)]) = .next t ∧ t.getV 3 = 0 ∧ t.pc = 0x202 := by
  refine ⟨randomWith (Config.draw 0) 3 0 (start 0xC300 [(3, 0x99)]), rfl, ?_, rfl⟩
  simp [randomWith, State.nextInstr]

/-! ### Index and memory (M1 to M24) -/

/-- M1. -/
theorem test_set_index :
    see (step (start 0xA2F0 [])) idxPc = some (0x2F0, 0x202, none) := by decide

/-- M3, M5. -/
theorem test_add_to_index :
    see (step { start 0xF21E [(2, 1)] with idx := 0xFFF }) idxPc = some (0x1000, 0x202, none) ∧
      see (step { start 0xF21E [(2, 0xFF)] with idx := 0xFFF0 }) idxPc = some (0xEF, 0x202, none) := by decide

/-- M7, M8. -/
theorem test_font_char_address :
    see (step (start 0xF029 [(0, 0xFF)])) idxPc = some (0x4FB, 0x202, none) ∧
      see (step (start 0xF029 [(0, 0x1A)])) idxPc = some (0x82, 0x202, none) := by decide

/-- S11, M13. -/
theorem test_store_bcd :
    see (step { start 0xF533 [(5, 234)] with idx := 0x300 }) (bytesAt 0x300 3) = some ([2, 3, 4], 0x202, none) ∧
      see (step { start 0xF533 [(5, 123)] with idx := 0xFFD }) (bytesAt 0xFFD 3) = some ([1, 2, 3], 0x202, none) := by decide

/-- M14. -/
theorem test_store_bcd_range :
    see (step (withBytes { start 0xF533 [(5, 123)] with idx := 0xFFE } 0xFFE [0xAA, 0xBB])) (bytesAt 0xFFE 2) =
      some ([0xAA, 0xBB], 0x200, some .outOfRangeAccess) := by decide

/-- M15 with NONE, M23 with X_PLUS_1. -/
theorem test_block_store :
    (blockStoreWith .none 2 { start 0 [(0, 0x11), (1, 0x22), (2, 0x33), (3, 0x44)] with idx := 0x400 }).map
        (fun t => (bytesAt 0x400 4 t, t.idx.toNat)) = .ok (([0x11, 0x22, 0x33, 0], 0x202, none), 0x400) ∧
      (blockStoreWith .xPlus1 0 { start 0 [(0, 0x5A)] with idx := 0xFFF }).map
        (fun t => (bytesAt 0xFFF 1 t, t.idx.toNat)) = .ok (([0x5A], 0x202, none), 0x1000) := by decide

/-- M19. -/
theorem test_block_store_range :
    see (step { start 0xFF55 [(0, 0xA0), (15, 0xAF)] with idx := 0xFF1 }) (bytesAt 0xFF1 2) =
      some ([0, 0], 0x200, some .outOfRangeAccess) := by decide

/-- M16 with X_PLUS_1, M21. -/
theorem test_block_load :
    (blockLoadWith .xPlus1 2 (withBytes { start 0 [(3, 0x77)] with idx := 0x400 } 0x400 [0xAA, 0xBB, 0xCC, 0xDD])).map
        (fun t => (twoRegs 2 3 t, t.getV 0, t.idx.toNat)) = .ok ((0xCC, 0x77, 0x202, none), 0xAA, 0x403) ∧
      (blockLoadWith .none 1 (withBytes { start 0 [] with idx := 0xFFE } 0xFFE [0x12, 0x34])).map (twoRegs 0 1) =
        .ok (0x12, 0x34, 0x202, none) := by decide

/-- M22. -/
theorem test_block_load_range :
    see (step { start 0xF065 [(0, 0x99)] with idx := 0x1000 }) (oneReg 0) = some (0x99, 0x200, some .outOfRangeAccess) := by decide

/-! ### Display (DR1 to DR12) -/

/-- DR1. -/
theorem test_clear_screen :
    see (step { start 0x00E0 [(15, 0x55)] with fb := Framebuffer.clear.setCell 31 63 true })
      (cellsAt [(31, 63)]) = some ([false], 0x55, 0x202, none) := by decide

/-- S6, DR8. -/
theorem test_draw :
    see (step (withBytes { start 0xD011 [(0, 60), (1, 0)] with idx := 0x300 } 0x300 [0xFF]))
        (cellsAt [(0, 59), (0, 60), (0, 63), (0, 0), (0, 3), (0, 4)]) =
        some ([false, true, true, true, true, false], 0, 0x202, none) ∧
      see (step { withBytes { start 0xD011 [] with idx := 0x300 } 0x300 [0xF0] with
          fb := (Framebuffer.clear.setCell 0 3 true).setCell 0 4 true })
        (cellsAt [(0, 0), (0, 2), (0, 3), (0, 4)]) = some ([true, true, false, true], 1, 0x202, none) := by decide

/-- DR3, DR6. -/
theorem test_draw_edges :
    see (step { start 0xD010 [(0, 3), (1, 3), (15, 1)] with idx := 0xFFFF }) (cellsAt [(3, 3)]) =
        some ([false], 0, 0x202, none) ∧
      see (step (withBytes { start 0xD013 [(15, 0x55)] with idx := 0xFFE } 0xFFE [0xFF, 0xFF]))
        (cellsAt [(0, 0)]) = some ([false], 0x55, 0x200, some .outOfRangeAccess) := by decide

/-! ### Input, timers and events (K1 to K16, E1 to E10) -/

/-- K1, K4, K6. -/
theorem test_skip_if_key :
    see (step { start 0xE49E [(4, 7)] with key := some 7 }) pcFault = some (0x204, none) ∧
      see (step { start 0xE49E [(4, 0x13)] with key := some 3 }) pcFault = some (0x202, none) ∧
      see (step (start 0xE49E [])) pcFault = some (0x202, none) := by decide

/-- K7, K10. -/
theorem test_skip_if_not_key :
    see (step { start 0xE4A1 [(4, 7)] with key := some 7 }) pcFault = some (0x202, none) ∧
      see (step { start 0xE4A1 [(4, 0x13)] with key := some 3 }) pcFault = some (0x204, none) := by decide

/-- K11. -/
theorem test_read_delay_timer :
    see (step { start 0xF307 [] with dt := 0x2C }) (oneReg 3) = some (0x2C, 0x202, none) := by decide

/-- K13, K12. -/
theorem test_await_key :
    see (step { start 0xF50A [(5, 0x99)] with key := some 0xB }) (oneReg 5) = some (0xB, 0x202, none) ∧
      see (step (start 0xF50A [(5, 0x99)])) (oneReg 5) = some (0x99, 0x200, none) := by decide

/-- K12, DR1, T5, R84. -/
theorem test_outcomes :
    stepOutcome (start 0xF50A []) = some .awaiting ∧ stepOutcome (start 0x00E0 []) = some .ok ∧
      stepOutcome (start 0x1200 []) = some (.fault .stalledProgramCounter) ∧
      stepOutcome { State.reset with fault := some .stackUnderflow } = some (.fault .stackUnderflow) := by decide

/-- K15, K16. -/
theorem test_set_timers :
    see (step { start 0xF315 [(3, 0x3C)] with dt := 0xFF }) (fun t => (t.dt, t.st, t.pc)) = some (0x3C, 0, 0x202) ∧
      see (step (start 0xF318 [(3, 5)])) (fun t => (t.dt, t.st, t.pc)) = some (0, 5, 0x202) := by decide

/-- E1, E3, E2. -/
theorem test_tick :
    (let t := tick { State.reset with dt := 2, st := 1 }; (t.dt, t.st)) = (1, 0) ∧ tick State.reset = State.reset ∧
      (let t := tickWith false { State.reset with dt := 2, st := 1 }; (t.dt, t.st)) = (1, 1) := by decide

/-- E4. -/
theorem test_key_event :
    keyEvent (some 9) { State.reset with key := some 3 } = { State.reset with key := some 9 } ∧
      keyEvent none { State.reset with key := some 9 } = State.reset := by decide

/-- E8, E9. -/
theorem test_dead_machine :
    stepOutcome dead = some (.fault .unknownOpcode) ∧ see (step dead) pcFault = none ∧ tick dead = dead ∧ keyEvent (some 3) dead = dead ∧ load [0xAA] dead = dead ∧
      resetEvent [] dead = State.reset := by decide

/-- R90. -/
theorem test_load :
    bytesAt 0x1FF 4 (load [0x61, 0x05] State.reset) = ([0, 0x61, 0x05, 0], 0x200, none) := by decide

/-! ### Witnesses -/

theorem witness_EncodeDecodeRoundTrip :
    decodeWord 0x8AB4 = .ok (.addReg 0xA 0xB) ∧ encode (.addReg 0xA 0xB) = 0x8AB4 := by decide

theorem witness_DecodeAgreesWithOpcodeMap :
    decodeWord 0x8AB4 = .ok (.addReg 0xA 0xB) ∧
      ∃ r ∈ opcodeMap, r.mnemonic = "add-reg" ∧ (0x8AB4 : Word) &&& r.mask = r.bits := by decide

theorem witness_OpcodeRowsAreDisjoint : ∃ r ∈ opcodeMap, (0xE4A1 : Word) &&& r.mask = r.bits := by decide

theorem witness_UnknownWordsByTopNibble :
    refusedWords [0x00E1, 0x5121, 0x912F, 0x8128, 0x812D, 0x812F, 0xE49F, 0xF300] = true ∧
      decodeWord 0x812E = .ok (.shiftLeft 1 2) := by decide

/-- An instruction that moves PC; a jump to itself; an await-key that waits. -/
theorem witness_StepRunsDecodedInstr :
    ((start 0x00E0 []).fault = none ∧ memRead (start 0x00E0 []) 0x200 = .ok 0x00 ∧
        memRead (start 0x00E0 []) 0x201 = .ok 0xE0 ∧ decode [0x00, 0xE0] = .ok (.clearScreen, []) ∧
        see (exec .clearScreen (start 0x00E0 [])) pcFault = some (0x202, none)) ∧
      (memRead (start 0x1200 []) 0x200 = .ok 0x12 ∧ memRead (start 0x1200 []) 0x201 = .ok 0x00 ∧
        decode [0x12, 0x00] = .ok (.jump 0x200, []) ∧
        see (exec (.jump 0x200) (start 0x1200 [])) pcFault = some (0x200, none)) ∧
      decode [0xF5, 0x0A] = .ok (.awaitKey 5, []) ∧
        see (exec (.awaitKey 5) (start 0xF50A [])) pcFault = some (0x200, none) := by decide

theorem witness_EveryInstructionAnswersNextState :
    State.reset.fault = none ∧ see (step State.reset) pcFault = some (0x200, some .unknownOpcode) := by decide

theorem witness_FetchIsBigEndian :
    memRead (startAt 0xFFE 0x12EE) 0xFFE = .ok 0x12 ∧ memRead (startAt 0xFFE 0x12EE) (0xFFE + 1) = .ok 0xEE := by decide

theorem witness_FetchSucceedsExactlyInRange :
    fetchWord (startAt 0xFFE 0x12EE) = .ok 0x12EE ∧ (startAt 0xFFF 0x12EE).fault = none ∧
      0xFFF ≤ (startAt 0xFFF 0x12EE).pc.toNat := by decide

theorem witness_UnknownOpcodeExactlyWhen :
    (start 0x812F []).fault = none ∧ see (step (start 0x812F [])) pcFault = some (0x200, some .unknownOpcode) ∧
      fetchWord (start 0x812F []) = .ok 0x812F ∧ wordDefined 0x812F = false ∧
      see (step (start 0x812E [])) pcFault = some (0x202, none) ∧ wordDefined 0x812E = true := by
  refine ⟨rfl, by decide, by decide, by decide, ?_, by decide⟩
  cases h : Config.shiftSrc <;> rfl

theorem witness_FaultIsSticky : dead.fault = some .unknownOpcode := by decide

theorem witness_FaultingStepChangesOnlyFault :
    (start 0x2200 []).fault = none ∧ see (step (start 0x2200 [])) State.fault = some (some .stalledProgramCounter) := by
  decide

/-- The last address in range and the first out of it, for each access of R195. -/
theorem witness_OutOfRangeExactlyWhen :
    see (step (startAt 0xFFE 0x00E0)) State.fault = some none ∧
      see (step (startAt 0xFFF 0x0000)) State.fault = some (some .outOfRangeAccess) ∧
      see (step { start 0xD011 [] with idx := 0xFFF }) State.fault = some none ∧
      see (step { start 0xD012 [] with idx := 0xFFF }) State.fault = some (some .outOfRangeAccess) ∧
      see (step { start 0xF533 [] with idx := 0xFFD }) State.fault = some none ∧
      see (step { start 0xF533 [] with idx := 0xFFE }) State.fault = some (some .outOfRangeAccess) := by decide

theorem witness_OutOfRangeExactlyWhen_block :
    see (exec (.blockStore 0) { State.reset with idx := 0xFFF }) State.fault = some none ∧
      see (exec (.blockStore 1) { State.reset with idx := 0xFFF }) State.fault = some (some .outOfRangeAccess) ∧
      see (exec (.blockLoad 15) { State.reset with idx := 0xFF0 }) State.fault = some none ∧
      see (exec (.blockLoad 15) { State.reset with idx := 0xFF1 }) State.fault = some (some .outOfRangeAccess) := by
  refine ⟨rfl, rfl, rfl, rfl⟩

/-- E5, E6. -/
theorem witness_LoadCopiesImage :
    State.reset.fault = none ∧ (load (List.replicate 3584 0xAA) State.reset).fault = none ∧
      (load (List.replicate 3585 0xAA) State.reset).fault = some .outOfRangeAccess := by
  refine ⟨rfl, ?_, ?_⟩
  · rcases load_cases (s := State.reset) rfl (List.replicate 3584 0xAA) with ⟨-, h⟩ | ⟨h, -⟩
    · rw [h.rest]; rfl
    · rw [List.length_replicate] at h; omega
  · rcases load_cases (s := State.reset) rfl (List.replicate 3585 0xAA) with ⟨h, -⟩ | ⟨-, h⟩
    · rw [List.length_replicate] at h; omega
    · rw [h]

/-- A call with 23 entries and with 24; a return with one entry and with none; S9: 24 calls from an empty stack. -/
theorem witness_StackFaultsExactlyWhen :
    see (step { start 0x2300 [] with stack := List.replicate 23 0x300 }) State.fault = some none ∧
      see (step { start 0x2300 [] with stack := List.replicate 24 0x300 }) State.fault = some (some .stackOverflow) ∧
      see (step { start 0x00EE [] with stack := [0x300] }) State.fault = some none ∧
      see (step (start 0x00EE [])) State.fault = some (some .stackUnderflow) ∧
      (runCalls (List.replicate 24 0x300) State.reset).map (fun t => t.stack.length) = some 24 := by decide

/-- Each of the four transfers to its own address (T5, T24, T3, T9), and a call to itself with a full stack (T10). -/
theorem witness_StallExactlyWhen :
    fetchInstr (start 0x1200 []) = .ok (.jump 0x200) ∧
      transferTarget (.jump 0x200) (start 0x1200 []) = some (start 0x1200 []).pc ∧
      see (step (start 0xB1FE [(0, 2)])) State.fault = some (some .stalledProgramCounter) ∧
      see (step { start 0x00EE [] with stack := [0x200] }) State.fault = some (some .stalledProgramCounter) ∧
      see (step { start 0x2200 [] with stack := List.replicate 23 0x300 }) State.fault =
        some (some .stalledProgramCounter) ∧
      see (step { start 0x2200 [] with stack := List.replicate 24 0x300 }) State.fault = some (some .stackOverflow) := by
  decide

theorem witness_PcAfterCompletedStep :
    fetchInstr (start 0x332A [(3, 0x2A)]) = .ok (.skipEqImm 3 0x2A) ∧
      see (step (start 0x332A [(3, 0x2A)])) pcFault = some (0x204, none) ∧
      pcAfter (.skipEqImm 3 0x2A) (start 0x332A [(3, 0x2A)]) = 0x204 := by decide

/-- Each outcome of R89 occurs; of a fault, both kinds. -/
theorem witness_StepOutcomeIsOneOfThree :
    stepOutcome (start 0x00E0 []) = some .ok ∧ stepOutcome (start 0xF50A []) = some .awaiting ∧
      stepOutcome (start 0x0000 []) = some (.fault .unknownOpcode) ∧
      stepOutcome dead = some (.fault .unknownOpcode) := by decide

/-- A state at the invariant's bounds, 24 entries of 0x1000 and PC 0x10FE; and one that steps on. -/
theorem witness_StepKeepsInvariant :
    Inv { State.reset with stack := List.replicate 24 0x1000, pc := 0x10FE } ∧ Inv (start 0x2300 []) ∧
      see (step (start 0x2300 [])) pcStack = some (0x300, none, [0x202]) := by
  refine ⟨⟨rfl, by decide, ?_, by decide⟩, ⟨by decide, by decide, ?_, by decide⟩, by decide⟩
  · intro a ha
    rw [List.eq_of_mem_replicate ha]
    decide
  · exact fun a ha => absurd ha List.not_mem_nil

theorem witness_HostEventsKeepInvariant : Memory.wf [(0x50, 0xF0), (0x51, 0x90)] = true ∧ Inv State.reset :=
  ⟨by decide, rfl, by decide, fun _ ha => absurd ha List.not_mem_nil, by decide⟩

theorem witness_ReachableStatesMeetInvariant :
    (∃ t, Reachable t ∧ t.pc = 0x202) ∧ dead.fault = some .unknownOpcode :=
  ⟨⟨_, .step _ _ (.key _ (some 3) (.booted _ (.load _ [0x61, 0x05] (.reset State.reset [] rfl)))) rfl, rfl⟩, by decide⟩

theorem witness_OnlyNamedRegistersWritten :
    see (exec (.blockLoad 1) { State.reset with idx := 0x300 }) (fun t => (t.pc, t.getV 2)) = some (0x202, 0) := rfl

theorem witness_OnlyNamedPartsWritten :
    see (exec .ret { State.reset with stack := [0x202] }) pcStack = some (0x202, none, []) := by decide

theorem witness_SoundCounterIsInvisible :
    see (step { start 0xF318 [(3, 5)] with st := 9 }) State.st = some 5 ∧
      see (step { start 0x00E0 [] with st := 9 }) State.st = some 9 := by decide

theorem witness_BusReadsWhatWasWritten :
    (memWrite State.reset 4095 0xAB).map (fun t => memRead t 4095) = .ok (.ok 0xAB) ∧
      memRead State.reset 4096 = .error .outOfRangeAccess := by decide

theorem witness_ReturnPops :
    (State.stack { State.reset with stack := [0x400, 0x202] } = [0x400] ++ [0x202]) ∧ State.reset.stack = [] := by decide

theorem witness_CallPushesReturnAddress :
    (List.replicate 23 (0x300 : Word)).length < 24 ∧ 24 ≤ (List.replicate 24 (0x300 : Word)).length ∧
      see (exec (.call 0x300) { State.reset with stack := List.replicate 23 0x300 }) (fun t => t.stack.length) = some 24 ∧
      see (exec (.call 0x300) { State.reset with stack := List.replicate 24 0x300 }) State.fault =
        some (some .stackOverflow) := by decide

theorem witness_CallThenReturnRestores :
    State.reset.stack.length < 24 ∧ see (exec (.call 0x300) State.reset) pcStack = some (0x300, none, [0x202]) := by decide

/-- Each condition holds on some operands and fails on others. -/
theorem witness_CompareSkips :
    see (exec (.skipEqImm 3 0) State.reset) pcFault = some (0x204, none) ∧
      see (exec (.skipEqImm 3 1) State.reset) pcFault = some (0x202, none) ∧
      see (exec (.skipNeReg 3 4) (withRegs State.reset [(4, 1)])) pcFault = some (0x204, none) ∧
      see (exec (.skipNeReg 4 4) (withRegs State.reset [(4, 1)])) pcFault = some (0x202, none) := by decide

/-- The clause for x other than 15, and x = 15. -/
theorem witness_AddRegSumAndCarry :
    (14 : Nibble) ≠ 15#4 ∧ see (exec (.addReg 14 1) (withRegs State.reset [(14, 0xFF), (1, 1)])) (twoRegs 14 15) =
        some (0, 1, 0x202, none) ∧
      see (exec (.addReg 15 1) (withRegs State.reset [(15, 0xFF), (1, 0)])) (oneReg 15) = some (0, 0x202, none) := by
  decide

theorem witness_SubRegDifferenceAndNoBorrow :
    see (exec (.subReg 14 1) (withRegs State.reset [(1, 1)])) (twoRegs 14 15) = some (0xFF, 0, 0x202, none) ∧
      see (exec (.subReg 15 15) State.reset) (oneReg 15) = some (1, 0x202, none) := by decide

theorem witness_SubRegRevDifferenceAndNoBorrow :
    see (exec (.subRegRev 14 1) (withRegs State.reset [(14, 1)])) (twoRegs 14 15) = some (0xFF, 0, 0x202, none) ∧
      see (exec (.subRegRev 15 15) State.reset) (oneReg 15) = some (1, 0x202, none) := by decide

/-- The clause for x other than 15, and x = 15, for either source. -/
theorem witness_ShiftRightHalvesSource :
    see (exec (.shiftRight 14 14) (withRegs State.reset [(14, 0xFF)])) (twoRegs 14 15) = some (0x7F, 1, 0x202, none) ∧
      see (exec (.shiftRight 15 15) (withRegs State.reset [(15, 6)])) (oneReg 15) = some (3, 0x202, none) := by
  unfold exec execShiftRight
  cases Config.shiftSrc <;> decide

theorem witness_ShiftLeftDoublesSource :
    see (exec (.shiftLeft 14 14) (withRegs State.reset [(14, 0xFF)])) (twoRegs 14 15) = some (0xFE, 1, 0x202, none) ∧
      see (exec (.shiftLeft 15 15) (withRegs State.reset [(15, 6)])) (oneReg 15) = some (12, 0x202, none) := by
  unfold exec execShiftLeft
  cases Config.shiftSrc <;> decide

theorem witness_RandomIsMaskedByImmediate : (0x0F : Byte).getLsbD 4 = false := by decide

/-- Both clauses, where they meet. -/
theorem witness_StoreBcdWritesDigits :
    (0xFFD#16).toNat + 2 < 4096 ∧ 4096 ≤ (0xFFE#16).toNat + 2 ∧
      see (exec (.storeBcd 5) { withRegs State.reset [(5, 255)] with idx := 0xFFD }) (bytesAt 0xFFD 3) =
        some ([2, 5, 5], 0x202, none) := by decide

theorem witness_BlockStoreWritesRegisters :
    (0xFF0#16).toNat + (15#4).toNat < 4096 ∧ 4096 ≤ (0xFF1#16).toNat + (15#4).toNat ∧
      see (exec (.blockStore 15) { withRegs State.reset [(15, 0xAF)] with idx := 0xFF0 }) (bytesAt 0xFFF 1) =
        some ([0xAF], 0x202, none) := ⟨by decide, by decide, rfl⟩

theorem witness_BlockLoadReadsRegisters :
    (0xFFF#16).toNat + (0#4).toNat < 4096 ∧ 4096 ≤ (0x1000#16).toNat + (0#4).toNat ∧
      see (exec (.blockLoad 0) (withBytes { State.reset with idx := 0xFFF } 0xFFF [0x5A])) (twoRegs 0 1) =
        some (0x5A, 0, 0x202, none) := ⟨by decide, by decide, rfl⟩

theorem witness_BlitterXorsWrappedImage :
    [0xFF#8, 0x81#8].length ≤ 32 ∧ spriteBit [0xFF, 0x81] 60 31 0 3 = true ∧
      (drawSprite [0xFF, 0x81] 60 31 Framebuffer.clear).1.cell 0 3 = true ∧
      (drawSprite [0xFF, 0x81] 60 31 Framebuffer.clear).2 = false := by decide

/-- n = 0 with I out of range; the last byte in range; the first out of it. -/
theorem witness_DrawUpdatesDisplayAndVf :
    (0xFFF#16).toNat + (1#4).toNat ≤ 4096 ∧ 4096 < (0xFFF#16).toNat + (2#4).toNat ∧
      see (exec (.draw 0 1 0) { State.reset with idx := 0xFFFF }) (cellsAt []) = some ([], 0, 0x202, none) ∧
      see (exec (.draw 0 1 1) (withBytes { State.reset with idx := 0xFFF } 0xFFF [0x80])) (cellsAt [(0, 0)]) =
        some ([true], 0, 0x202, none) := by decide

/-- S7. -/
theorem witness_DrawingTwiceRestores :
    [0xFF#8].length ≤ 15 ∧
      (drawSprite [0xFF] 60 0 (drawSprite [0xFF] 60 0 Framebuffer.clear).1) = (Framebuffer.clear, true) := by decide

/-- A match, a latched key that is another, and no key. -/
theorem witness_KeySkips :
    see (exec (.skipIfKey 4) { withRegs State.reset [(4, 15)] with key := some 15 }) pcFault = some (0x204, none) ∧
      see (exec (.skipIfNotKey 4) { withRegs State.reset [(4, 16)] with key := some 0 }) pcFault = some (0x204, none) ∧
      see (exec (.skipIfNotKey 4) State.reset) pcFault = some (0x204, none) := by decide

theorem witness_AwaitKeyTakesLatchedKey :
    State.key { State.reset with key := some 15 } = some 15 ∧ State.reset.key = none := by decide

theorem witness_WaitEndsWithKeyEvent :
    (start 0xF50A []).fault = none ∧ fetchInstr (start 0xF50A []) = .ok (.awaitKey 5) ∧ (start 0xF50A []).key = none := by
  decide

theorem witness_TickCountsBothDown :
    State.fault { State.reset with dt := 255, st := 0 } = none ∧
      (tick { State.reset with dt := 255, st := 0 }).dt = 254 ∧ (tick { State.reset with dt := 255, st := 0 }).st = 0 := by
  decide

theorem witness_KeyEventSetsLatch : State.reset.fault = none ∧ dead.fault ≠ none := by decide

end Sys2Proof.Tests
end

section
/-!
SUPPORT. The inversion lemma of `exec`: what the next state of any instruction is. An instruction completes, and then
PC, registers, the other parts, the stack and memory are as its rule says; or it enters a fault its rule names, and
FAULT alone changes.
-/

namespace Sys2Proof.Machine

/-! ### Frames of the other single parts, and of a sequence of updates -/

theorem SameExcept.trans {ps : List Part} {s t u : State} (hst : SameExcept ps s t) (htu : SameExcept ps t u) :
    SameExcept ps s u := by
  intro p hp
  have h₁ := hst p hp
  have h₂ := htu p hp
  cases p with
  | mem => exact fun a => (h₂ a).trans (h₁ a)
  | _ => exact Eq.trans h₂ h₁

theorem SameExcept.of_fb (s : State) (f : Framebuffer) (v : Vector Byte 16) (pc : Word) {ps : List Part}
    (h : .fb ∈ ps) : SameExcept ps s { s with fb := f, v := v, pc := pc } := by
  intro p hp
  cases p with
  | fb => exact absurd h hp
  | mem => exact fun _ => rfl
  | _ => rfl

theorem SameExcept.of_dt (s : State) (b : Byte) (pc : Word) {ps : List Part} (h : .dt ∈ ps) :
    SameExcept ps s { s with dt := b, pc := pc } := by
  intro p hp
  cases p with
  | dt => exact absurd h hp
  | mem => exact fun _ => rfl
  | _ => rfl

theorem SameExcept.of_st (s : State) (b : Byte) (pc : Word) {ps : List Part} (h : .st ∈ ps) :
    SameExcept ps s { s with st := b, pc := pc } := by
  intro p hp
  cases p with
  | st => exact absurd h hp
  | mem => exact fun _ => rfl
  | _ => rfl

theorem SameExcept.of_draws (s : State) (n : Nat) (v : Vector Byte 16) (pc : Word) {ps : List Part}
    (h : .draws ∈ ps) : SameExcept ps s { s with draws := n, v := v, pc := pc } := by
  intro p hp
  cases p with
  | draws => exact absurd h hp
  | mem => exact fun _ => rfl
  | _ => rfl

theorem SameExcept.of_mem (s : State) (m : Memory) (pc : Word) {ps : List Part} (h : .mem ∈ ps) :
    SameExcept ps s { s with mem := m, pc := pc } := by
  intro p hp
  cases p with
  | mem => exact absurd h hp
  | _ => rfl

theorem SameRegsExcept.refl (xs : List Nibble) (s : State) : SameRegsExcept xs s s := .of_v rfl

theorem SameRegsExcept.setV {xs : List Nibble} {s t : State} (h : SameRegsExcept xs s t) {x : Nibble} (hx : x ∈ xs)
    (b : Byte) : SameRegsExcept xs s (t.setV x b) := by
  intro y hy
  have hne : y ≠ x := fun e => hy (e ▸ hx)
  rw [State.getV_setV_ne t b hne, h y hy]

/-- Bytes loaded into V0 to Vx reach no other register. -/
theorem SameRegsExcept.setRegistersFrom (s : State) (x : Nibble) {bs : List Byte} (h : bs.length = blockLength x) :
    SameRegsExcept ((List.range (x.toNat + 1)).map (BitVec.ofNat 4)) s (setRegistersFrom s 0 bs) := by
  intro y hy
  have hx := x.isLt
  simp only [blockLength] at h
  have hy' : ¬y.toNat < x.toNat + 1 := fun hlt =>
    hy (List.mem_map.2 ⟨y.toNat, List.mem_range.2 hlt, by simp⟩)
  rw [getV_setRegistersFrom s 0 bs (by omega), if_neg (by omega)]

/-- A completed write of bytes replaces memory and nothing else. -/
theorem BytesWritten.exists_mem {s t : State} {a : Nat} {bs : List Byte} (h : BytesWritten s t a bs) :
    ∃ m, t = { s with mem := m } ∧ (Memory.wf s.mem = true → Memory.wf m = true) :=
  ⟨t.mem, h.rest, h.wf⟩

/-- The target of jump-offset as the table of R15 writes it. -/
theorem jumpOffset_eq (nnn : Addr12) (b : Byte) :
    addrOf nnn + byteToWord b = BitVec.ofNat 16 (nnn.toNat + b.toNat) := by
  rw [← jumpOffset_toNat, BitVec.ofNat_toNat, BitVec.setWidth_eq]

/-! ### The completed instruction -/

/-- What a completed instruction does to the call stack: nothing, a call's push below the cap, or a pop. -/
def StackStep (s t : State) : Prop :=
  t.stack = s.stack ∨ (s.stack.length < 24 ∧ t.stack = s.stack ++ [s.pc + 2#16]) ∨ ∃ a, s.stack = t.stack ++ [a]

/-- `t` is what the rule of `i` leaves of `s` when the instruction completes. -/
structure Completed (i : Instr) (s t : State) : Prop where
  pc : t.pc = pcAfter i s
  regs : SameRegsExcept (regsWritten i) s t
  parts : SameExcept (partsWritten i) s t
  stack : StackStep s t
  wf : Memory.wf s.mem = true → Memory.wf t.mem = true

/-- All that an instruction can answer. -/
inductive Answers (i : Instr) (s : State) : Result → Prop
  | completed {t : State} : Completed i s t → Answers i s (.next t)
  | faulted (f : Fault) : .fault ∈ partsWritten i → Answers i s (raise f s)

section
variable {i : Instr} {s : State}

/-- An instruction that writes PC and nothing else. -/
theorem Answers.setPc {pc : Word} (hpc : pc = pcAfter i s) : Answers i s (.next { s with pc := pc }) :=
  .completed ⟨hpc, .of_v rfl, .of_regs s s.v pc _, .inl rfl, id⟩

theorem skipIf_pc (s : State) (c : Bool) : (s.skipIf c).pc = pcSkip s c := by
  cases c <;> rfl

/-- A skip. -/
theorem Answers.skipIf {c : Bool} (hpc : pcSkip s c = pcAfter i s) : Answers i s (.next (s.skipIf c)) :=
  .setPc ((skipIf_pc s c).trans hpc)

/-- An instruction that writes one register. -/
theorem Answers.setV {x : Nibble} {b : Byte} (hpc : s.pc + 2#16 = pcAfter i s) (hx : regsWritten i = [x]) :
    Answers i s (.next (s.setV x b).nextInstr) :=
  .completed ⟨hpc, (SameRegsExcept.refl _ s).setV (by simp [hx]) b, .of_regs s _ _ _, .inl rfl, id⟩

/-- An instruction that writes Vx and then the flag. -/
theorem Answers.resultThenFlag {x : Nibble} {r : Byte} {f : Bool} (hpc : s.pc + 2#16 = pcAfter i s)
    (hx : regsWritten i = [x, vfIndex]) : Answers i s (.next (resultThenFlag s x r f).nextInstr) :=
  .completed ⟨hpc, ((SameRegsExcept.refl _ s).setV (by simp [hx]) _).setV (by simp [hx]) _, .of_regs s _ _ _,
    .inl rfl, id⟩

/-- An instruction that writes the flag and then Vx. -/
theorem Answers.flagThenResult {x : Nibble} {r : Byte} {f : Bool} (hpc : s.pc + 2#16 = pcAfter i s)
    (hx : regsWritten i = [x, vfIndex]) : Answers i s (.next (flagThenResult s x r f).nextInstr) :=
  .completed ⟨hpc, ((SameRegsExcept.refl _ s).setV (by simp [hx]) _).setV (by simp [hx]) _, .of_regs s _ _ _,
    .inl rfl, id⟩

/-- An instruction that writes I. -/
theorem Answers.setIdx {a : Word} (hpc : s.pc + 2#16 = pcAfter i s) (hp : partsWritten i = [.idx]) :
    Answers i s (.next (State.nextInstr { s with idx := a })) :=
  .completed ⟨hpc, .of_v rfl, .of_idx s a s.v _ _ (by simp [hp]), .inl rfl, id⟩

end

theorem execRet_answers (s : State) : Answers .ret s (execRet s) := by
  rcases pop_cases s with ⟨l, a, hs, hp⟩ | ⟨-, hp⟩ <;> simp only [execRet, hp]
  · exact .completed ⟨by simp [pcAfter, hs], .of_v rfl, .of_stack s l a _ (by decide), .inr (.inr ⟨a, hs⟩), id⟩
  · exact .faulted _ (by decide)

theorem execCall_answers (nnn : Addr12) (s : State) : Answers (.call nnn) s (execCall nnn s) := by
  rcases push_cases s (s.pc + 2#16) with ⟨hlt, hp⟩ | ⟨-, hp⟩ <;> simp only [execCall, hp]
  · exact .completed ⟨addrOf_eq nnn, .of_v rfl, .of_stack s _ _ _ (by simp [partsWritten]),
      .inr (.inl ⟨hlt, rfl⟩), id⟩
  · exact .faulted _ (by simp [partsWritten])

theorem execDraw_answers (x y n : Nibble) (s : State) : Answers (.draw x y n) s (execDraw x y n s) := by
  rcases readBytes_cases s (dataAddr s 0) n.toNat with ⟨-, rows, hr, -⟩ | ⟨-, hr⟩ <;> simp only [execDraw, hr]
  · exact .completed ⟨rfl, (SameRegsExcept.of_v rfl).setV (by simp [regsWritten, vfIndex]) _,
      .of_fb s _ _ _ (by simp [partsWritten]), .inl rfl, id⟩
  · exact .faulted _ (by simp [partsWritten])

theorem execAwaitKey_answers (x : Nibble) (s : State) : Answers (.awaitKey x) s (execAwaitKey x s) := by
  cases hk : s.key with
  | none =>
    simp only [execAwaitKey, hk]
    exact .setPc (by simp [pcAfter, hk])
  | some k =>
    simp only [execAwaitKey, hk]
    exact .setV (by simp [pcAfter, hk]) rfl

theorem execStoreBcd_answers (x : Nibble) (s : State) : Answers (.storeBcd x) s (execStoreBcd x s) := by
  rcases writeBytes_cases s (dataAddr s 0) (bcdDigits (s.getV x)) with ⟨-, t, ht, hw⟩ | ⟨-, he⟩
  · obtain ⟨m, rfl, hm⟩ := hw.exists_mem
    simp only [execStoreBcd, ht]
    exact .completed ⟨rfl, .of_v rfl, .of_mem s m _ (by simp [partsWritten]), .inl rfl, hm⟩
  · simp only [execStoreBcd, he]
    exact .faulted _ (by simp [partsWritten])

theorem execBlockStore_answers (x : Nibble) (s : State) : Answers (.blockStore x) s (execBlockStore x s) := by
  rcases writeBytes_cases s (dataAddr s 0) (registersFrom s 0 (blockLength x)) with ⟨-, t, ht, hw⟩ | ⟨-, he⟩
  · obtain ⟨m, rfl, hm⟩ := hw.exists_mem
    simp only [execBlockStore, blockStoreWith, ht]
    refine .completed ⟨rfl, .of_v rfl, ?_, .inl rfl, hm⟩
    exact (SameExcept.of_mem s m s.pc (by simp [partsWritten])).trans (.of_idx _ _ _ _ _ (by simp [partsWritten]))
  · simp only [execBlockStore, blockStoreWith, he]
    exact .faulted _ (by simp [partsWritten])

theorem execBlockLoad_answers (x : Nibble) (s : State) : Answers (.blockLoad x) s (execBlockLoad x s) := by
  rcases readBytes_cases s (dataAddr s 0) (blockLength x) with ⟨-, bs, hr, hlen, -⟩ | ⟨-, hr⟩ <;>
    simp only [execBlockLoad, blockLoadWith, hr]
  · have hregs := SameRegsExcept.setRegistersFrom s x hlen
    rw [setRegistersFrom_rest] at hregs ⊢
    exact .completed ⟨rfl, hregs, .of_idx s _ _ _ _ (by simp [partsWritten]), .inl rfl, id⟩
  · exact .faulted _ (by simp [partsWritten])

/-- Every instruction, on every state, completes or enters a fault that its rule names. -/
theorem exec_answers (i : Instr) (s : State) : Answers i s (exec i s) := by
  cases i with
  | clearScreen => exact .completed ⟨rfl, .of_v rfl, .of_fb s _ _ _ (by decide), .inl rfl, id⟩
  | ret => exact execRet_answers s
  | jump nnn => exact .setPc (addrOf_eq nnn)
  | call nnn => exact execCall_answers nnn s
  | jumpOffset nnn => exact .setPc (jumpOffset_eq nnn _)
  | skipEqImm x kk => exact .skipIf rfl
  | skipNeImm x kk => exact .skipIf rfl
  | skipEqReg x y => exact .skipIf rfl
  | skipNeReg x y => exact .skipIf rfl
  | skipIfKey x => exact .skipIf rfl
  | skipIfNotKey x => exact .skipIf rfl
  | setImm x kk => exact .setV rfl rfl
  | addImm x kk => exact .setV rfl rfl
  | move x y => exact .setV rfl rfl
  | or x y => exact .setV rfl rfl
  | and x y => exact .setV rfl rfl
  | xor x y => exact .setV rfl rfl
  | readDelayTimer x => exact .setV rfl rfl
  | addReg x y => exact .resultThenFlag rfl rfl
  | subReg x y => exact .resultThenFlag rfl rfl
  | subRegRev x y => exact .resultThenFlag rfl rfl
  | shiftRight x y => exact .flagThenResult rfl rfl
  | shiftLeft x y => exact .flagThenResult rfl rfl
  | random x kk =>
    exact .completed ⟨rfl, (SameRegsExcept.of_v rfl).setV (by simp [regsWritten]) _,
      .of_draws s _ _ _ (by simp [partsWritten]), .inl rfl, id⟩
  | draw x y n => exact execDraw_answers x y n s
  | awaitKey x => exact execAwaitKey_answers x s
  | setDelayTimer x =>
    exact .completed ⟨rfl, .of_v rfl, .of_dt s _ _ (by simp [partsWritten]), .inl rfl, id⟩
  | setSoundTimer x =>
    exact .completed ⟨rfl, .of_v rfl, .of_st s _ _ (by simp [partsWritten]), .inl rfl, id⟩
  | setIndex nnn => exact .setIdx rfl rfl
  | addToIndex x => exact .setIdx rfl rfl
  | fontCharAddress x => exact .setIdx rfl rfl
  | storeBcd x => exact execStoreBcd_answers x s
  | blockStore x => exact execBlockStore_answers x s
  | blockLoad x => exact execBlockLoad_answers x s

/-- The inversion of `exec`. -/
theorem exec_cases {i : Instr} {s t : State} (h : exec i s = .next t) :
    Completed i s t ∨ (.fault ∈ partsWritten i ∧ ∃ f, t = { s with fault := some f }) := by
  have ha := exec_answers i s
  rw [h] at ha
  cases ha with
  | completed hc => exact .inl hc
  | faulted f hf => exact .inr ⟨hf, f, rfl⟩

end Sys2Proof.Machine
end

section
/-!
SUPPORT. The invariant of Sys2Proof/Safety.lean: RESET establishes it; faults, instructions, the guard and the host's
events keep it.
-/

namespace Sys2Proof.Machine

/-- RESET leaves a state that meets the invariant (R30, R220). -/
theorem inv_resetWith {init : Memory} (h : Memory.wf init = true) : Inv (State.resetWith init) :=
  ⟨h, by simp [State.resetWith], by simp [State.resetWith], by simp [State.resetWith]⟩

/-- The table of R15 stays within the bound of R16, from a PC that a fetch accepts. -/
theorem pcAfter_le {s : State} (hs : Inv s) (hpc : s.pc.toNat ≤ 0xFFE) (i : Instr) : (pcAfter i s).toNat ≤ 0x10FE := by
  obtain ⟨-, -, hstack, -⟩ := hs
  have hnext : (s.pc + 2#16).toNat ≤ 0x10FE := by bv_omega
  have hskip (c : Bool) : (pcSkip s c).toNat ≤ 0x10FE := by
    cases c
    · exact hnext
    · show (s.pc + 4#16).toNat ≤ 0x10FE
      bv_omega
  cases i with
  | skipEqImm | skipNeImm | skipEqReg | skipNeReg | skipIfKey | skipIfNotKey => exact hskip _
  | jump nnn | call nnn =>
    have := nnn.isLt
    simp only [pcAfter, BitVec.toNat_ofNat]
    omega
  | jumpOffset nnn =>
    have := nnn.isLt
    have := (s.getV 0#4).isLt
    simp only [pcAfter, BitVec.toNat_ofNat]
    omega
  | ret =>
    show (s.stack.getLast?.getD 0#16).toNat ≤ 0x10FE
    cases hl : s.stack.getLast? with
    | none => simp
    | some a =>
      have := hstack a (List.mem_of_getLast? hl)
      simp only [Option.getD_some]
      omega
  | awaitKey x =>
    simp only [pcAfter]
    split
    · omega
    · exact hnext
  | _ => exact hnext

/-- What an instruction may do to the stack keeps its depth and its entries in bounds (R17, R29). -/
theorem StackStep.keeps_bounds {s t : State} (h : StackStep s t) (hpc : s.pc.toNat ≤ 0xFFE)
    (hlen : s.stack.length ≤ 24) (hent : ∀ a ∈ s.stack, 2 ≤ a.toNat ∧ a.toNat ≤ 0x1000) :
    t.stack.length ≤ 24 ∧ ∀ a ∈ t.stack, 2 ≤ a.toNat ∧ a.toNat ≤ 0x1000 := by
  rcases h with heq | ⟨hlt, hpush⟩ | ⟨a, hpop⟩
  · rw [heq]
    exact ⟨hlen, hent⟩
  · rw [hpush]
    refine ⟨by simp; omega, fun a ha => ?_⟩
    rcases List.mem_append.1 ha with ha | ha
    · exact hent a ha
    · rw [List.mem_singleton.1 ha]
      bv_omega
  · rw [hpop, List.length_append] at hlen
    exact ⟨by omega, fun b hb => hent b (hpop ▸ List.mem_append_left [a] hb)⟩

/-- A completed instruction keeps the invariant, when it was fetched from inside memory. -/
theorem Completed.keeps_inv {i : Instr} {s t : State} (h : Completed i s t) (hpc : s.pc.toNat ≤ 0xFFE) (hs : Inv s) :
    Inv t := by
  have ⟨hwf, hlen, hent, _⟩ := hs
  obtain ⟨hlen', hent'⟩ := h.stack.keeps_bounds hpc hlen hent
  exact ⟨h.wf hwf, hlen', hent', h.pc ▸ pcAfter_le hs hpc i⟩

theorem exec_keeps_inv {i : Instr} {s t : State} (h : exec i s = .next t) (hpc : s.pc.toNat ≤ 0xFFE) (hs : Inv s) :
    Inv t := by
  rcases exec_cases h with hc | ⟨-, f, rfl⟩
  · exact hc.keeps_inv hpc hs
  · exact hs

theorem step_keeps_inv {s t : State} (hs : Inv s) (h : step s = .next t) : Inv t := by
  obtain ⟨-, ⟨f, -, rfl⟩ | ⟨i, u, hf, hu, ⟨-, rfl⟩ | ⟨-, rfl⟩⟩⟩ := step_cases h
  · exact hs
  · exact hs
  · exact exec_keeps_inv hu (pc_le_of_fetchInstr hf) hs

theorem tick_keeps_inv {s : State} (hs : Inv s) : Inv (tick s) := by
  cases hf : s.fault with
  | none => rw [tick_live hf]; exact hs
  | some f => rw [tick_dead hf]; exact hs

theorem keyEvent_keeps_inv {s : State} (hs : Inv s) (k : Option Nibble) : Inv (keyEvent k s) := by
  cases hf : s.fault with
  | none => rw [keyEvent_live hf]; exact hs
  | some f => rw [keyEvent_dead hf]; exact hs

theorem load_keeps_inv {s : State} (hs : Inv s) (img : List Byte) : Inv (load img s) := by
  cases hf : s.fault with
  | some f => rw [load_dead hf]; exact hs
  | none =>
    rcases load_cases hf img with ⟨-, hw⟩ | ⟨-, hl⟩
    · obtain ⟨hwf, hrest⟩ := hs
      obtain ⟨m, hl, hm⟩ := hw.exists_mem
      rw [hl]
      exact ⟨hm hwf, hrest⟩
    · rw [hl]; exact hs

end Sys2Proof.Machine
end

section
/-!
SUPPORT. The sound counter ST is read by nothing (spec/10_state.md R22): every operation, the fetch and every
instruction do the same in two states that differ in ST alone.
-/

namespace Sys2Proof.Machine

/-- The state with another sound counter. -/
def State.withSt (s : State) (b : Byte) : State := { s with st := b }

@[simp] theorem State.withSt_pc (s : State) (b : Byte) : (s.withSt b).pc = s.pc := rfl
@[simp] theorem State.withSt_stack (s : State) (b : Byte) : (s.withSt b).stack = s.stack := rfl
@[simp] theorem State.withSt_key (s : State) (b : Byte) : (s.withSt b).key = s.key := rfl
@[simp] theorem State.withSt_mem (s : State) (b : Byte) : (s.withSt b).mem = s.mem := rfl
@[simp] theorem State.getV_withSt (s : State) (b : Byte) (x : Nibble) : (s.withSt b).getV x = s.getV x := rfl
@[simp] theorem dataAddr_withSt (s : State) (b : Byte) (j : Nat) : dataAddr (s.withSt b) j = dataAddr s j := rfl

theorem readBytes_withSt (s : State) (b : Byte) (a n : Nat) : readBytes (s.withSt b) a n = readBytes s a n := by
  induction n generalizing a with
  | zero => rfl
  | succ n ih => simp only [readBytes, ih, memRead_congr (s.withSt_mem b)]

theorem memWrite_withSt (s : State) (b : Byte) (a : Nat) (c : Byte) :
    memWrite (s.withSt b) a c = (memWrite s a c).map (·.withSt b) := by
  unfold memWrite
  split <;> rfl

theorem writeBytes_withSt (s : State) (b : Byte) (a : Nat) (bs : List Byte) :
    writeBytes (s.withSt b) a bs = (writeBytes s a bs).map (·.withSt b) := by
  induction bs generalizing s a with
  | nil => rfl
  | cons c bs ih =>
    simp only [writeBytes, memWrite_withSt]
    cases memWrite s a c with
    | error f => rfl
    | ok t => exact ih t (a + 1)

theorem registersFrom_withSt (s : State) (b : Byte) (j n : Nat) :
    registersFrom (s.withSt b) j n = registersFrom s j n := by
  induction n generalizing j with
  | zero => rfl
  | succ n ih => rw [registersFrom, ih]; rfl

theorem setRegistersFrom_withSt (s : State) (b : Byte) (j : Nat) (bs : List Byte) :
    setRegistersFrom (s.withSt b) j bs = (setRegistersFrom s j bs).withSt b := by
  induction bs generalizing s j with
  | nil => rfl
  | cons c bs ih => exact ih (s.setV (BitVec.ofNat 4 j) c) (j + 1)

theorem push_withSt (s : State) (b : Byte) (a : Word) : push (s.withSt b) a = (push s a).map (·.withSt b) := by
  by_cases h : Config.stackCap ≤ s.stack.length <;> simp only [push, State.withSt_stack, h, if_true, if_false] <;> rfl

theorem pop_withSt (s : State) (b : Byte) : pop (s.withSt b) = (pop s).map fun r => (r.1, r.2.withSt b) := by
  unfold pop
  simp only [State.withSt_stack]
  split <;> rfl

theorem fetchInstr_withSt (s : State) (b : Byte) : fetchInstr (s.withSt b) = fetchInstr s := rfl

/-- Two answers that are next states which differ in ST at most. -/
def SameButSt (r r' : Result) : Prop := ∃ t c, r = .next t ∧ r' = .next (t.withSt c)

theorem commit_withSt (s : State) (b : Byte) {r r' : Except Fault State} (h : r' = r.map (·.withSt b)) :
    SameButSt (commit s r) (commit (s.withSt b) r') := by
  subst h
  cases r <;> exact ⟨_, b, rfl, rfl⟩

/-- Only set-sound-timer chooses the counter of the next state; every other instruction keeps the one it finds. -/
theorem exec_withSt (i : Instr) (s : State) (b : Byte) : SameButSt (exec i s) (exec i (s.withSt b)) := by
  cases i with
  | setSoundTimer x => exact ⟨_, s.getV x, rfl, rfl⟩
  | ret =>
    refine commit_withSt s b ?_
    simp only [pop_withSt]
    cases pop s <;> rfl
  | call nnn =>
    refine commit_withSt s b ?_
    simp only [State.withSt_pc, push_withSt]
    cases push s (s.pc + 2#16) <;> rfl
  | draw x y n =>
    refine commit_withSt s b ?_
    simp only [dataAddr_withSt, readBytes_withSt]
    cases readBytes s (dataAddr s 0) n.toNat <;> rfl
  | awaitKey x =>
    refine commit_withSt s b ?_
    simp only [State.withSt_key]
    cases s.key <;> rfl
  | storeBcd x =>
    refine commit_withSt s b ?_
    simp only [dataAddr_withSt, State.getV_withSt, writeBytes_withSt]
    cases writeBytes s (dataAddr s 0) (bcdDigits (s.getV x)) <;> rfl
  | blockStore x =>
    refine commit_withSt s b ?_
    simp only [blockStoreWith, dataAddr_withSt, registersFrom_withSt, writeBytes_withSt]
    cases writeBytes s (dataAddr s 0) (registersFrom s 0 (blockLength x)) <;> rfl
  | blockLoad x =>
    refine commit_withSt s b ?_
    simp only [blockLoadWith, dataAddr_withSt, readBytes_withSt, setRegistersFrom_withSt]
    cases readBytes s (dataAddr s 0) (blockLength x) <;> rfl
  | _ => exact ⟨_, b, rfl, rfl⟩

/-- The guard compares FAULT and PC alone. -/
theorem stallGuard_withSt (i : Instr) (s : State) (b : Byte) {r r' : Result} (h : SameButSt r r') :
    SameButSt (stallGuard i s r) (stallGuard i (s.withSt b) r') := by
  obtain ⟨t, c, rfl, rfl⟩ := h
  by_cases h : t.fault = none ∧ t.pc = s.pc ∧ sparedByGuard i = false
  · exact ⟨_, b, if_pos h, if_pos h⟩
  · exact ⟨t, c, if_neg h, if_neg h⟩

/-- Live machines that differ in ST alone step to states that differ in ST at most. -/
theorem step_withSt {s : State} (hs : s.fault = none) (b : Byte) : SameButSt (step s) (step (s.withSt b)) := by
  cases hf : fetchInstr s with
  | error f =>
    rw [step_fetch_error hs hf, step_fetch_error (s := s.withSt b) hs hf]
    exact ⟨_, b, rfl, rfl⟩
  | ok i =>
    rw [step_fetch_ok hs hf, step_fetch_ok (s := s.withSt b) hs hf]
    exact stallGuard_withSt i s b (exec_withSt i s b)

end Sys2Proof.Machine
end

section
/-!
SUPPORT. The obligations of the family 10_state.
-/

namespace Sys2Proof.Machine

/-- Settles O21, by the invariant of every state after RESET. -/
theorem resetMeetsInvariant : Obligations.ResetMeetsInvariant :=
  inv_resetWith Memory.wf_reset

/-- Settles O20, event by event. -/
theorem hostEventsKeepInvariant : Obligations.HostEventsKeepInvariant :=
  ⟨fun _ _ hinit => inv_resetWith hinit,
    fun _ hs => ⟨tick_keeps_inv hs, keyEvent_keeps_inv hs, load_keeps_inv hs⟩⟩

/-- Settles O25, by the inversion of `exec`: a fault writes FAULT alone, and only where the rule names one. -/
theorem onlyNamedPartsWritten : Obligations.OnlyNamedPartsWritten := by
  intro i s t h
  rcases exec_cases h with hc | ⟨hf, f, rfl⟩
  · exact hc.parts
  · exact .of_fault s _ _ hf

/-- Settles O24, by the inversion of `exec`: a fault writes no register. -/
theorem onlyNamedRegistersWritten : Obligations.OnlyNamedRegistersWritten := by
  intro i s t h
  rcases exec_cases h with hc | ⟨-, f, rfl⟩
  · exact hc.regs
  · exact .of_v rfl

/-- Settles O17: a step that ends with FAULT clear is what its fetched instruction completed to. -/
theorem pcAfterCompletedStep : Obligations.PcAfterCompletedStep := by
  intro s t i _ hi h ht
  obtain ⟨-, ⟨f, -, rfl⟩ | ⟨j, u, hj, hu, ⟨-, rfl⟩ | ⟨-, rfl⟩⟩⟩ := step_cases h
  · cases ht
  · cases ht
  · obtain rfl : j = i := Except.ok.inj (hj.symm.trans hi)
    rcases exec_cases hu with hc | ⟨-, f, rfl⟩
    · exact hc.pc
    · cases ht

/-- Settles O19, by the cases of a step: fault entry changes FAULT alone, and a fetched instruction keeps the bounds. -/
theorem stepKeepsInvariant : Obligations.StepKeepsInvariant :=
  fun _ _ => step_keeps_inv

/-- Settles O26, by running the two states side by side. -/
theorem soundCounterIsInvisible : Obligations.SoundCounterIsInvisible := by
  intro s t b h
  have ⟨hs, _⟩ := step_cases h
  obtain ⟨u, c, hu, hc⟩ := step_withSt hs b
  obtain rfl : u = t := Host.Outcome.next.inj (hu.symm.trans h)
  exact ⟨c, hc⟩

end Sys2Proof.Machine
end

section
/-!
SUPPORT. The obligations of the family 20_memory.
-/

namespace Sys2Proof.Machine

/-- Settles O27, by what the bus answers on each side of 4096 and by what it reads after one store. -/
theorem busReadsWhatWasWritten : Obligations.BusReadsWhatWasWritten := by
  intro s a b
  refine ⟨fun hge => ⟨memRead_of_ge hge, memWrite_of_ge hge⟩, fun hlt => ?_⟩
  have hread (a' : Nat) := memRead_set s a a' b hlt
  exact ⟨⟨_, memRead_of_lt hlt⟩, _, memWrite_of_lt hlt, (hread a).trans (if_pos rfl),
    fun a' hne => (hread a').trans (if_neg hne), .of_v rfl, rfl, .of_mem s _ s.pc (by decide)⟩

/-- Settles O9, by the value of a word of two bytes. -/
theorem fetchIsBigEndian : Obligations.FetchIsBigEndian :=
  fun _ hi lo hhi hlo => ⟨_, fetchWord_of_reads hhi hlo, wordOfBytes_toNat hi lo⟩

end Sys2Proof.Machine
end

section
/-!
SUPPORT. What the decoder answers for a word (spec/30_encoding.md R65 to R67), said once: it rejects the words of the
table of R66 by name, and what any other word decodes to has that word as its encoding. And the rows of the opcode map
(R64): the words that match one are the encodings of its instruction.
-/

namespace Sys2Proof

open Laws.EncodesRow (matches_formatA matches_formatK matches_formatD matches_formatF matches_formatR)

/-! ### A word is made of its fields -/

theorem formatA_fields (w : Word) : formatA (fieldOp w) (fieldNnn w) = w := by
  apply BitVec.eq_of_toNat_eq
  rw [formatA_toNat, fieldOp_toNat, fieldNnn_toNat]
  omega

theorem formatK_fields (w : Word) : formatK (fieldOp w) (fieldX w) (fieldKk w) = w := by
  apply BitVec.eq_of_toNat_eq
  rw [formatK_toNat, fieldOp_toNat, fieldX_toNat, fieldKk_toNat]
  omega

theorem formatR_fields (w : Word) : formatR (fieldOp w) (fieldX w) (fieldY w) (fieldN w) = w := by
  apply BitVec.eq_of_toNat_eq
  rw [formatR_toNat, fieldOp_toNat, fieldX_toNat, fieldY_toNat, fieldN_toNat]
  omega

section
variable {w : Word} {op : Nibble}

theorem formatA_of_op (hop : fieldOp w = op) : formatA op (fieldNnn w) = w :=
  hop ▸ formatA_fields w

theorem formatK_of_op (hop : fieldOp w = op) : formatK op (fieldX w) (fieldKk w) = w :=
  hop ▸ formatK_fields w

theorem formatK_of_op_kk {fn : Byte} (hop : fieldOp w = op) (hfn : fieldKk w = fn) : formatK op (fieldX w) fn = w :=
  hfn ▸ formatK_of_op hop

theorem formatR_of_op (hop : fieldOp w = op) : formatR op (fieldX w) (fieldY w) (fieldN w) = w :=
  hop ▸ formatR_fields w

theorem formatR_of_op_n {sub : Nibble} (hop : fieldOp w = op) (hsub : fieldN w = sub) :
    formatR op (fieldX w) (fieldY w) sub = w :=
  hsub ▸ formatR_of_op hop

/-! ### A word under a mask of R64 -/

theorem formatA_of_mask (h : w &&& 0xF000 = formatA op 0) : formatA op (fieldNnn w) = w := by
  rw [← formatA_fields w, matches_formatA] at h
  exact formatA_of_op (by simpa using congrArg fieldOp h)

theorem formatK_of_mask (h : w &&& 0xF000 = formatK op 0 0) : formatK op (fieldX w) (fieldKk w) = w := by
  rw [← formatK_fields w, matches_formatK] at h
  exact formatK_of_op (by simpa using congrArg fieldOp h)

theorem formatD_of_mask (h : w &&& 0xF000 = formatR op 0 0 0) :
    formatR op (fieldX w) (fieldY w) (fieldN w) = w := by
  rw [← formatR_fields w, matches_formatD] at h
  exact formatR_of_op (by simpa using congrArg fieldOp h)

theorem formatF_of_mask {fn : Byte} (h : w &&& 0xF0FF = formatK op 0 fn) : formatK op (fieldX w) fn = w := by
  rw [← formatK_fields w, matches_formatF] at h
  exact formatK_of_op_kk (by simpa using congrArg fieldOp h) (by simpa using congrArg fieldKk h)

theorem formatR_of_mask {sub : Nibble} (h : w &&& 0xF00F = formatR op 0 0 sub) :
    formatR op (fieldX w) (fieldY w) sub = w := by
  rw [← formatR_fields w, matches_formatR] at h
  exact formatR_of_op_n (by simpa using congrArg fieldOp h) (by simpa using congrArg fieldN h)

theorem fixed_of_mask {c : Word} (h : w &&& 0xFFFF = c) : c = w :=
  h.symm.trans BitVec.and_allOnes

end

/-! ### The decoder on an encoded instruction -/

theorem decodeWord_encode (i : Instr) : decodeWord (encode i) = .ok i := by
  cases i with
  | clearScreen | ret => decide
  | jump | call | setIndex | jumpOffset | skipEqImm | skipNeImm | setImm | addImm | random | draw =>
    simp [encode, decodeWord]
  | skipEqReg | skipNeReg => simp [encode, decodeWord, decodeCompare]
  | skipIfKey | skipIfNotKey => simp [encode, decodeWord, decodeKey]
  | move | or | and | xor | addReg | subReg | shiftRight | subRegRev | shiftLeft =>
    simp [encode, decodeWord, decodeAlu]
  | readDelayTimer | awaitKey | setDelayTimer | setSoundTimer | addToIndex | fontCharAddress | storeBcd | blockStore
  | blockLoad => simp [encode, decodeWord, decodeMisc]

/-! ### The decoder on any word -/

/-- All that a decoder can answer for `w`, where `unknown` says that `w` is no instruction: it names the word, or it
answers an instruction whose encoding is the word. -/
inductive DecodeAnswer (w : Word) (unknown : Prop) : Except DecodeError Instr → Prop
  | unknownOpcode : unknown → DecodeAnswer w unknown (.error (.unknownOpcode w))
  | instr (i : Instr) : ¬unknown → encode i = w → DecodeAnswer w unknown (.ok i)

/-- The table of R66: the words that are no instruction, by top nibble. -/
def UnknownWord (w : Word) : Prop :=
  (fieldOp w = 0x0 ∧ w ≠ 0x00E0 ∧ w ≠ 0x00EE) ∨
  ((fieldOp w = 0x5 ∨ fieldOp w = 0x9) ∧ fieldN w ≠ 0x0) ∨
  (fieldOp w = 0x8 ∧ fieldN w ∈ [0x8#4, 0x9#4, 0xA#4, 0xB#4, 0xC#4, 0xD#4, 0xF#4]) ∨
  (fieldOp w = 0xE ∧ fieldKk w ∉ [0x9E#8, 0xA1#8]) ∨
  (fieldOp w = 0xF ∧ fieldKk w ∉ [0x07#8, 0x0A#8, 0x15#8, 0x18#8, 0x1E#8, 0x29#8, 0x33#8, 0x55#8, 0x65#8])

section
variable {w : Word}

theorem decodeFixed_answer : DecodeAnswer w (w ≠ 0x00E0 ∧ w ≠ 0x00EE) (decodeFixed w) := by
  unfold decodeFixed
  split
  next h => exact .instr _ (by simp [h]) h.symm
  next h =>
    split
    next h' => exact .instr _ (by simp [h']) h'.symm
    next h' => exact .unknownOpcode ⟨h, h'⟩

theorem decodeCompare_answer {i : Instr} (henc : fieldN w = 0x0 → encode i = w) :
    DecodeAnswer w (fieldN w ≠ 0x0) (decodeCompare i w) := by
  unfold decodeCompare
  split
  next h => exact .instr _ (not_not.2 h) (henc h)
  next h => exact .unknownOpcode h

theorem decodeAlu_answer (hop : fieldOp w = 0x8) :
    DecodeAnswer w (fieldN w ∈ [0x8#4, 0x9#4, 0xA#4, 0xB#4, 0xC#4, 0xD#4, 0xF#4]) (decodeAlu w) := by
  unfold decodeAlu
  dsimp only
  split
  case h_10 =>
    refine .unknownOpcode ?_
    generalize fieldN w = n at *
    decide +revert
  all_goals
    next hsub => exact .instr _ (by rw [hsub]; decide) (formatR_of_op_n hop hsub)

theorem decodeKey_answer (hop : fieldOp w = 0xE) :
    DecodeAnswer w (fieldKk w ∉ [0x9E#8, 0xA1#8]) (decodeKey w) := by
  unfold decodeKey
  split
  case h_3 => exact .unknownOpcode (by simp_all)
  all_goals
    next hfn => exact .instr _ (by rw [hfn]; decide) (formatK_of_op_kk hop hfn)

theorem decodeMisc_answer (hop : fieldOp w = 0xF) :
    DecodeAnswer w (fieldKk w ∉ [0x07#8, 0x0A#8, 0x15#8, 0x18#8, 0x1E#8, 0x29#8, 0x33#8, 0x55#8, 0x65#8])
      (decodeMisc w) := by
  unfold decodeMisc
  split
  case h_10 => exact .unknownOpcode (by simp_all)
  all_goals
    next hfn => exact .instr _ (by rw [hfn]; decide) (formatK_of_op_kk hop hfn)

theorem DecodeAnswer.congr {p q : Prop} {r : Except DecodeError Instr} (h : p ↔ q) (hr : DecodeAnswer w p r) :
    DecodeAnswer w q r :=
  propext h ▸ hr

/-- What `decodeWord` does: it rejects the words of the table of R66, and takes every other word apart into an
instruction that has no bit more and no bit less (R67). -/
theorem decodeWord_answer (w : Word) : DecodeAnswer w (UnknownWord w) (decodeWord w) := by
  unfold decodeWord
  split
  case h_1 hop => exact .congr (by simp [UnknownWord, hop]) decodeFixed_answer
  case h_6 hop | h_10 hop =>
    exact .congr (by simp [UnknownWord, hop]) (decodeCompare_answer fun hsub => formatR_of_op_n hop hsub)
  case h_9 hop => exact .congr (by simp [UnknownWord, hop]) (decodeAlu_answer hop)
  case h_15 hop => exact .congr (by simp [UnknownWord, hop]) (decodeKey_answer hop)
  case h_16 =>
    have hop : fieldOp w = 0xF := by
      generalize fieldOp w = op at *
      decide +revert
    exact .congr (by simp [UnknownWord, hop]) (decodeMisc_answer hop)
  case h_2 hop | h_3 hop | h_11 hop | h_12 hop => exact .instr _ (by simp [UnknownWord, hop]) (formatA_of_op hop)
  case h_4 hop | h_5 hop | h_7 hop | h_8 hop | h_13 hop =>
    exact .instr _ (by simp [UnknownWord, hop]) (formatK_of_op hop)
  case h_14 hop => exact .instr _ (by simp [UnknownWord, hop]) (formatR_of_op hop)

theorem encode_of_decodeWord {i : Instr} (h : decodeWord w = .ok i) : encode i = w := by
  have ha := decodeWord_answer w
  rw [h] at ha
  cases ha with
  | instr _ _ henc => exact henc

theorem decodeWord_of_unknown (h : UnknownWord w) : decodeWord w = .error (.unknownOpcode w) := by
  have ha := decodeWord_answer w
  generalize decodeWord w = r at ha ⊢
  cases ha with
  | unknownOpcode => rfl
  | instr _ hn _ => exact absurd h hn

theorem exists_decodeWord_of_not_unknown (h : ¬UnknownWord w) : ∃ i, decodeWord w = .ok i := by
  have ha := decodeWord_answer w
  generalize decodeWord w = r at ha ⊢
  cases ha with
  | unknownOpcode hu => exact absurd hu h
  | instr i => exact ⟨i, rfl⟩

end

/-! ### The table of R64 -/

/-- Two rows that agree on the bits which both masks cover are one row. -/
theorem opcodeRow_eq_of_agree : ∀ r ∈ opcodeMap, ∀ q ∈ opcodeMap, r.bits &&& q.mask = q.bits &&& r.mask → r = q := by
  decide

/-- Row by row: a word that matches is the encoding of an instruction of the row's name. -/
theorem exists_encode_of_row (w : Word) :
    ∀ r ∈ opcodeMap, w &&& r.mask = r.bits → ∃ i, encode i = w ∧ i.mnemonic = r.mnemonic := by
  simp only [opcodeMap, opcodeRows1, opcodeRows2, opcodeRows3, List.cons_append, List.nil_append, List.forall_mem_cons]
  exact ⟨fun h => ⟨.clearScreen, fixed_of_mask h, rfl⟩,
    fun h => ⟨.ret, fixed_of_mask h, rfl⟩,
    fun h => ⟨.jump _, formatA_of_mask h, rfl⟩,
    fun h => ⟨.call _, formatA_of_mask h, rfl⟩,
    fun h => ⟨.skipEqImm _ _, formatK_of_mask h, rfl⟩,
    fun h => ⟨.skipNeImm _ _, formatK_of_mask h, rfl⟩,
    fun h => ⟨.skipEqReg _ _, formatR_of_mask h, rfl⟩,
    fun h => ⟨.setImm _ _, formatK_of_mask h, rfl⟩,
    fun h => ⟨.addImm _ _, formatK_of_mask h, rfl⟩,
    fun h => ⟨.move _ _, formatR_of_mask h, rfl⟩,
    fun h => ⟨.or _ _, formatR_of_mask h, rfl⟩,
    fun h => ⟨.and _ _, formatR_of_mask h, rfl⟩,
    fun h => ⟨.xor _ _, formatR_of_mask h, rfl⟩,
    fun h => ⟨.addReg _ _, formatR_of_mask h, rfl⟩,
    fun h => ⟨.subReg _ _, formatR_of_mask h, rfl⟩,
    fun h => ⟨.shiftRight _ _, formatR_of_mask h, rfl⟩,
    fun h => ⟨.subRegRev _ _, formatR_of_mask h, rfl⟩,
    fun h => ⟨.shiftLeft _ _, formatR_of_mask h, rfl⟩,
    fun h => ⟨.skipNeReg _ _, formatR_of_mask h, rfl⟩,
    fun h => ⟨.setIndex _, formatA_of_mask h, rfl⟩,
    fun h => ⟨.jumpOffset _, formatA_of_mask h, rfl⟩,
    fun h => ⟨.random _ _, formatK_of_mask h, rfl⟩,
    fun h => ⟨.draw _ _ _, formatD_of_mask h, rfl⟩,
    fun h => ⟨.skipIfKey _, formatF_of_mask h, rfl⟩,
    fun h => ⟨.skipIfNotKey _, formatF_of_mask h, rfl⟩,
    fun h => ⟨.readDelayTimer _, formatF_of_mask h, rfl⟩,
    fun h => ⟨.awaitKey _, formatF_of_mask h, rfl⟩,
    fun h => ⟨.setDelayTimer _, formatF_of_mask h, rfl⟩,
    fun h => ⟨.setSoundTimer _, formatF_of_mask h, rfl⟩,
    fun h => ⟨.addToIndex _, formatF_of_mask h, rfl⟩,
    fun h => ⟨.fontCharAddress _, formatF_of_mask h, rfl⟩,
    fun h => ⟨.storeBcd _, formatF_of_mask h, rfl⟩,
    fun h => ⟨.blockStore _, formatF_of_mask h, rfl⟩,
    fun h => ⟨.blockLoad _, formatF_of_mask h, rfl⟩,
    List.forall_mem_nil _⟩

/-- The other way: every instruction's encoding matches the row of its name. -/
theorem Laws.EncodesRow.statement : ∀ i : Instr, Laws.EncodesRow.Statement i
  | .clearScreen => clearScreen
  | .ret => ret
  | .jump nnn => jump nnn
  | .call nnn => call nnn
  | .skipEqImm x kk => skipEqImm x kk
  | .skipNeImm x kk => skipNeImm x kk
  | .skipEqReg x y => skipEqReg x y
  | .setImm x kk => setImm x kk
  | .addImm x kk => addImm x kk
  | .move x y => move x y
  | .or x y => or x y
  | .and x y => and x y
  | .xor x y => xor x y
  | .addReg x y => addReg x y
  | .subReg x y => subReg x y
  | .shiftRight x y => shiftRight x y
  | .subRegRev x y => subRegRev x y
  | .shiftLeft x y => shiftLeft x y
  | .skipNeReg x y => skipNeReg x y
  | .setIndex nnn => setIndex nnn
  | .jumpOffset nnn => jumpOffset nnn
  | .random x kk => random x kk
  | .draw x y n => draw x y n
  | .skipIfKey x => skipIfKey x
  | .skipIfNotKey x => skipIfNotKey x
  | .readDelayTimer x => readDelayTimer x
  | .awaitKey x => awaitKey x
  | .setDelayTimer x => setDelayTimer x
  | .setSoundTimer x => setSoundTimer x
  | .addToIndex x => addToIndex x
  | .fontCharAddress x => fontCharAddress x
  | .storeBcd x => storeBcd x
  | .blockStore x => blockStore x
  | .blockLoad x => blockLoad x

theorem unknownWord_iff (w : Word) :
    UnknownWord w ↔
      (w.toNat / 4096 = 0 ∧ w.toNat ≠ 0x00E0 ∧ w.toNat ≠ 0x00EE) ∨
      ((w.toNat / 4096 = 5 ∨ w.toNat / 4096 = 9) ∧ w.toNat % 16 ≠ 0) ∨
      (w.toNat / 4096 = 8 ∧ w.toNat % 16 ∈ [0x8, 0x9, 0xA, 0xB, 0xC, 0xD, 0xF]) ∨
      (w.toNat / 4096 = 0xE ∧ w.toNat % 256 ∉ [0x9E, 0xA1]) ∨
      (w.toNat / 4096 = 0xF ∧ w.toNat % 256 ∉ [0x07, 0x0A, 0x15, 0x18, 0x1E, 0x29, 0x33, 0x55, 0x65]) := by
  simp [UnknownWord, ← BitVec.toNat_inj, fieldOp_toNat, fieldN_toNat, fieldKk_toNat]

end Sys2Proof
end

section
/-!
SUPPORT. The obligations of the family 30_encoding.
-/

namespace Sys2Proof

/-- Settles O1, by the decoder on the word that the two encoded bytes make. -/
theorem decodeEncodeRoundTrip : Obligations.DecodeEncodeRoundTrip := by
  intro i rest
  show decode ((encode i).extractLsb' 8 8 :: (encode i).extractLsb' 0 8 :: rest) = .ok (i, rest)
  rw [decode_two_bytes, wordOfBytes_wordBytes, decodeWord_encode]

/-- Settles O2, by the cases of the decoder's answer. -/
theorem encodeDecodeRoundTrip : Obligations.EncodeDecodeRoundTrip :=
  fun _ _ => encode_of_decodeWord

/-- Settles O3: an instruction's encoding matches the row of its name, and a word that matches a row is an encoding. -/
theorem decodeAgreesWithOpcodeMap : Obligations.DecodeAgreesWithOpcodeMap := by
  refine fun w => ⟨fun i h => ?_, fun r hr h => ?_⟩
  · obtain ⟨r, hr, hname, hmatch⟩ := Laws.EncodesRow.statement i
    rw [encode_of_decodeWord h] at hmatch
    exact ⟨r, hr, hname, eq_of_beq hmatch⟩
  · obtain ⟨i, rfl, hname⟩ := exists_encode_of_row w r hr h
    exact ⟨i, decodeWord_encode i, hname⟩

/-- Settles O4: both rows have the word's bits where both masks are set, so they agree there. -/
theorem opcodeRowsAreDisjoint : Obligations.OpcodeRowsAreDisjoint := by
  refine ⟨rfl, fun r hr q hq w hwr hwq => opcodeRow_eq_of_agree r hr q hq ?_⟩
  calc r.bits &&& q.mask = w &&& r.mask &&& q.mask := by rw [hwr]
    _ = w &&& q.mask &&& r.mask := by ac_rfl
    _ = q.bits &&& r.mask := by rw [hwq]

/-- Settles O5, by the cases of the decoder's answer, the fields read as numbers. -/
theorem unknownWordsByTopNibble : Obligations.UnknownWordsByTopNibble :=
  fun w => ⟨fun h => decodeWord_of_unknown ((unknownWord_iff w).2 h),
    fun h => exists_decodeWord_of_not_unknown (mt (unknownWord_iff w).1 h)⟩

/-- Settles O6, by running the decoder on the eleven words. -/
theorem sampleWordsDecode : Obligations.SampleWordsDecode := by
  unfold Obligations.SampleWordsDecode
  decide

end Sys2Proof
end

section
/-!
SUPPORT. How a step ends (spec/40_step_and_host_events.md R84, R88, R89): an instruction completes with the FAULT it
found or enters a fault, a step that completes and leaves PC where it was is a waiting await-key, and the outcome is
read off FAULT and PC.
-/

namespace Sys2Proof.Machine

/-! ### FAULT across an instruction -/

/-- An instruction that leaves FAULT alone where it completes: all it can answer. -/
theorem commit_completes_or_faults {s : State} {r : Except Fault State} (h : ∀ t, r = .ok t → t.fault = s.fault) :
    (∃ t, commit s r = .next t ∧ t.fault = s.fault) ∨ ∃ f, commit s r = .next { s with fault := some f } := by
  cases r with
  | ok t => exact .inl ⟨t, rfl, h t rfl⟩
  | error f => exact .inr ⟨f, rfl⟩

/-- A completed write of bytes leaves FAULT alone. -/
theorem writeBytes_fault {s t : State} {a : Nat} {bs : List Byte} (h : writeBytes s a bs = .ok t) :
    t.fault = s.fault := by
  rcases writeBytes_cases s a bs with ⟨-, u, hu, hw⟩ | ⟨-, he⟩
  · obtain rfl : u = t := Except.ok.inj (hu.symm.trans h)
    rw [hw.rest]
  · rw [he] at h
    cases h

theorem setRegistersFrom_fault (s : State) (j : Nat) (bs : List Byte) :
    (setRegistersFrom s j bs).fault = s.fault := by
  rw [setRegistersFrom_rest]

/-- Every instruction, on every state, completes with the FAULT it found, or enters a fault (R84, R198). -/
theorem exec_completes_or_faults (i : Instr) (s : State) :
    (∃ t, exec i s = .next t ∧ t.fault = s.fault) ∨ ∃ f, exec i s = .next { s with fault := some f } := by
  cases i with
  | ret =>
    refine commit_completes_or_faults fun t ht => ?_
    rcases pop_cases s with ⟨l, a, -, hp⟩ | ⟨-, hp⟩ <;> rw [hp] at ht <;> cases ht
    rfl
  | call nnn =>
    refine commit_completes_or_faults fun t ht => ?_
    rcases push_cases s (s.pc + 2#16) with ⟨-, hp⟩ | ⟨-, hp⟩ <;> rw [hp] at ht <;> cases ht
    rfl
  | draw x y n =>
    refine commit_completes_or_faults fun t ht => ?_
    cases hr : readBytes s (dataAddr s 0) n.toNat <;> rw [hr] at ht <;> cases ht
    rfl
  | awaitKey x =>
    refine commit_completes_or_faults fun t ht => ?_
    cases hk : s.key <;> rw [hk] at ht <;> cases ht <;> rfl
  | storeBcd x =>
    refine commit_completes_or_faults fun t ht => ?_
    cases hw : writeBytes s (dataAddr s 0) (bcdDigits (s.getV x)) <;> rw [hw] at ht <;> cases ht
    exact (writeBytes_fault hw :)
  | blockStore x =>
    refine commit_completes_or_faults fun t ht => ?_
    rw [blockStoreWith] at ht
    cases hw : writeBytes s (dataAddr s 0) (registersFrom s 0 (blockLength x)) <;> rw [hw] at ht <;> cases ht
    exact (writeBytes_fault hw :)
  | blockLoad x =>
    refine commit_completes_or_faults fun t ht => ?_
    rw [blockLoadWith] at ht
    cases hr : readBytes s (dataAddr s 0) (blockLength x) <;> rw [hr] at ht <;> cases ht
    exact setRegistersFrom_fault s 0 _
  | _ => exact .inl ⟨_, rfl, rfl⟩

theorem exec_answers_next (i : Instr) (s : State) : ∃ t, exec i s = .next t := by
  rcases exec_completes_or_faults i s with ⟨t, ht, -⟩ | ⟨f, hf⟩
  · exact ⟨t, ht⟩
  · exact ⟨_, hf⟩

/-! ### The waiting await-key -/

/-- With the latch empty await-key changes nothing (R175). -/
theorem exec_awaitKey_of_empty {s : State} (h : s.key = none) (x : Nibble) : exec (.awaitKey x) s = .next s := by
  simp [exec, execAwaitKey, h]

/-- With a key latched await-key takes it and goes on to the next instruction (R175). -/
theorem exec_awaitKey_of_latched {s : State} {k : Nibble} (h : s.key = some k) (x : Nibble) :
    exec (.awaitKey x) s = .next (s.setV x (keyToByte k)).nextInstr := by
  simp [exec, execAwaitKey, h]

/-- An await-key that left PC where it was has waited. -/
theorem awaitKey_waited {x : Nibble} {s t : State} (h : exec (.awaitKey x) s = .next t) (hpc : t.pc = s.pc) :
    s.key = none ∧ t = s := by
  cases hk : s.key with
  | none =>
    rw [exec_awaitKey_of_empty hk] at h
    exact ⟨rfl, (Host.Outcome.next.inj h).symm⟩
  | some k =>
    rw [exec_awaitKey_of_latched hk] at h
    cases h
    have hpc' : s.pc + 2#16 = s.pc := hpc
    bv_omega

/-! ### The step and its outcome -/

theorem fetchInstr_of_reads {s : State} {hi lo : Byte} {i : Instr} (h1 : memRead s s.pc.toNat = .ok hi)
    (h2 : memRead s (s.pc.toNat + 1) = .ok lo) (hd : decode [hi, lo] = .ok (i, [])) : fetchInstr s = .ok i := by
  simp only [fetchInstr, fetchWord_of_reads h1 h2, decodeWord_of_decode hd]

/-- The guard spares await-key alone (R88). -/
theorem sparedByGuard_eq_false_iff (i : Instr) : sparedByGuard i = false ↔ ∀ x, i ≠ .awaitKey x := by
  rw [← Bool.not_eq_true, sparedByGuard_iff, not_exists]

theorem stallGuard_next (i : Instr) (s t : State) :
    stallGuard i s (.next t) =
      if t.fault = none ∧ t.pc = s.pc ∧ sparedByGuard i = false then
        .next { s with fault := some .stalledProgramCounter }
      else .next t := rfl

/-- A fault raised before the guard stays as it is (R197). -/
theorem stallGuard_of_faulted (i : Instr) (s : State) (f : Fault) :
    stallGuard i s (.next { s with fault := some f }) = .next { s with fault := some f } := by
  simp [stallGuard_next]

/-- Every step of a live machine answers a next state: fault entry, a completed instruction that moved PC, or an
await-key that waits. -/
inductive LiveStep (s : State) : Prop
  | faulted (c : Fault) : step s = .next { s with fault := some c } → LiveStep s
  | moved (t : State) : step s = .next t → t.fault = none → t.pc ≠ s.pc → LiveStep s
  | waited (x : Nibble) : fetchInstr s = .ok (.awaitKey x) → s.key = none → step s = .next s → LiveStep s

theorem liveStep {s : State} (hs : s.fault = none) : LiveStep s := by
  cases hi : fetchInstr s with
  | error f => exact .faulted f (step_fetch_error hs hi)
  | ok i =>
    have hstep := step_fetch_ok hs hi
    rcases exec_completes_or_faults i s with ⟨t, ht, hft⟩ | ⟨f, hf⟩
    · rw [ht] at hstep
      rcases stallGuard_cases i s t with ⟨-, hg⟩ | ⟨hng, hg⟩
      · exact .faulted _ (hstep.trans hg)
      · by_cases hpc : t.pc = s.pc
        · have hspared : sparedByGuard i = true := by
            by_contra h
            exact hng ⟨hft.trans hs, hpc, Bool.eq_false_of_not_eq_true h⟩
          obtain ⟨x, rfl⟩ := (sparedByGuard_iff i).1 hspared
          obtain ⟨hk, rfl⟩ := awaitKey_waited ht hpc
          exact .waited x hi hk (hstep.trans hg)
        · exact .moved t (hstep.trans hg) (hft.trans hs) hpc
    · rw [hf] at hstep
      exact .faulted f (hstep.trans (stallGuard_of_faulted i s f))

theorem stepOutcome_of_fault {s t : State} {c : Fault} (h : step s = .next t) (ht : t.fault = some c) :
    stepOutcome s = some (.fault c) := by
  simp only [stepOutcome, h, outcomeOf, ht]

theorem stepOutcome_of_live {s t : State} (h : step s = .next t) (ht : t.fault = none) :
    stepOutcome s = some (if t.pc = s.pc then .awaiting else .ok) := by
  simp only [stepOutcome, h, outcomeOf, ht]

theorem stepOutcome_dead {s : State} {f : Fault} (h : s.fault = some f) : stepOutcome s = some (.fault f) := by
  simp only [stepOutcome, step_dead h, outcomeOf]

/-! ### Host events -/

theorem SameExcept.of_key (s : State) (k : Option Nibble) {ps : List Part} (h : .key ∈ ps) :
    SameExcept ps s { s with key := k } := by
  intro p hp
  cases p with
  | key => exact absurd h hp
  | mem => exact fun _ => rfl
  | _ => rfl

/-! ### Runs -/

theorem Booted.inv {s : State} (h : Booted s) : Inv s := by
  induction h with
  | reset _ _ hinit => exact inv_resetWith hinit
  | load _ img _ ih => exact load_keeps_inv ih img

theorem Reachable.inv {s : State} (h : Reachable s) : Inv s := by
  induction h with
  | booted _ hb => exact hb.inv
  | step _ _ _ hst ih => exact step_keeps_inv ih hst
  | tick _ _ ih => exact tick_keeps_inv ih
  | key _ k _ ih => exact keyEvent_keeps_inv ih k

end Sys2Proof.Machine
end

section
/-!
SUPPORT. The obligations of the family 40_step_and_host_events.
-/

namespace Sys2Proof.Machine

/-- Settles O22: RESET establishes the invariant and every event of a run keeps it; a faulted machine stays faulted. -/
theorem reachableStatesMeetInvariant : Obligations.ReachableStatesMeetInvariant := by
  refine ⟨fun _ => Reachable.inv, fun s f hf => ⟨?_, fun k => ?_, fun t ht => ?_⟩⟩
  · rw [tick_dead hf, hf]
  · rw [keyEvent_dead hf, hf]
  · rw [step_dead hf] at ht
    cases ht

/-- Settles O8, by how an instruction and a live machine's step end. -/
theorem everyInstructionAnswersNextState : Obligations.EveryInstructionAnswersNextState := by
  refine ⟨exec_answers_next, fun s hs => ?_⟩
  cases liveStep hs with
  | faulted _ h => exact ⟨_, h⟩
  | moved t h => exact ⟨t, h⟩
  | waited _ _ _ h => exact ⟨s, h⟩

/-- Settles O18: a dead machine reports its cause, and a live machine's step ends in one of three ways. -/
theorem stepOutcomeIsOneOfThree : Obligations.StepOutcomeIsOneOfThree := by
  intro s
  cases hs : s.fault with
  | some c => exact .inr (.inr ⟨c, stepOutcome_dead hs, .inr ⟨rfl, step_dead hs⟩⟩)
  | none =>
    cases liveStep hs with
    | faulted c h => exact .inr (.inr ⟨c, stepOutcome_of_fault h rfl, .inl ⟨rfl, h⟩⟩)
    | moved t h ht hpc =>
      have ho := stepOutcome_of_live h ht
      rw [if_neg hpc] at ho
      exact .inl ⟨ho, rfl, t, h, ht, hpc⟩
    | waited x hi hk h =>
      have ho := stepOutcome_of_live h hs
      rw [if_pos rfl] at ho
      exact .inr (.inl ⟨ho, rfl, h, hk, x, hi⟩)

/-- Settles O60, by the two cases of LOAD: the bytes written at 0x200, or fault entry. -/
theorem loadCopiesImage : Obligations.LoadCopiesImage := by
  intro s img hs
  rcases load_cases hs img with ⟨hle, hw⟩ | ⟨hgt, hl⟩
  · refine ⟨fun _ => ⟨fun k hk => ?_, fun a ha => ?_, ?_⟩, fun hgt => absurd hle (by omega)⟩
    · rw [hw.read, if_pos (by omega), Nat.add_sub_cancel_left]
    · rw [hw.read, if_neg (by omega)]
    · obtain ⟨m, hm, -⟩ := hw.exists_mem
      rw [hm]
      exact ⟨.of_v rfl, rfl, .of_mem s m s.pc (by decide)⟩
  · exact ⟨fun hle => absurd hgt (by omega), fun _ => hl⟩

/-- Settles O7, by the two cases of the guard. -/
theorem stepRunsDecodedInstr : Obligations.StepRunsDecodedInstr := by
  intro s t hi lo i hs h1 h2 hd he
  have hstep := step_fetch_ok hs (fetchInstr_of_reads h1 h2 hd)
  rw [he] at hstep
  rw [← sparedByGuard_eq_false_iff, hstep, stallGuard_next]
  exact ⟨fun hstall => if_pos hstall, fun hgo => if_neg hgo⟩

/-- Settles O10, by the two cases of a fetch. -/
theorem fetchSucceedsExactlyInRange : Obligations.FetchSucceedsExactlyInRange := by
  intro s
  rcases fetchInstr_cases s with ⟨hle, w, hw, -⟩ | ⟨hge, hw, hi⟩
  · exact ⟨⟨fun _ => hle, fun _ => ⟨w, hw⟩⟩, fun _ hge => absurd hle (by omega)⟩
  · refine ⟨⟨fun ⟨w, hok⟩ => ?_, fun hle => absurd hge (by omega)⟩, fun hs _ => step_fetch_error hs hi⟩
    rw [hw] at hok
    cases hok

/-- Settles O59, by what KEY does to a live and to a dead machine. -/
theorem keyEventSetsLatch : Obligations.KeyEventSetsLatch := by
  refine fun s k => ⟨fun hs => ?_, fun hs => ?_⟩
  · rw [keyEvent_live hs]
    exact ⟨rfl, .of_v rfl, rfl, .of_key s k (by decide)⟩
  · obtain ⟨f, hf⟩ := Option.ne_none_iff_exists'.1 hs
    exact keyEvent_dead hf k

end Sys2Proof.Machine
end

section
/-!
SUPPORT. What return, call and the skips answer (spec/41_control_flow.md R101, R103 to R107; spec/10_state.md R15, R20,
R21), one equation per case of the stack, and once for every skip.
-/

namespace Sys2Proof.Machine

/-! ### return and call -/

theorem exec_ret_of_append {s : State} {l : List Word} {a : Word} (h : s.stack = l ++ [a]) :
    exec .ret s = .next { s with stack := l, pc := a } := by
  simp [exec, execRet, pop_of_append h]

theorem exec_ret_of_nil {s : State} (h : s.stack = []) :
    exec .ret s = .next { s with fault := some .stackUnderflow } := by
  simp [exec, execRet, pop_of_nil h]

theorem push_of_lt {s : State} (h : s.stack.length < 24) (a : Word) :
    push s a = .ok { s with stack := s.stack ++ [a] } := by
  rcases push_cases s a with ⟨-, hp⟩ | ⟨hge, -⟩
  · exact hp
  · omega

theorem push_of_ge {s : State} (h : 24 ≤ s.stack.length) (a : Word) : push s a = .error .stackOverflow := by
  rcases push_cases s a with ⟨hlt, -⟩ | ⟨-, hp⟩
  · omega
  · exact hp

theorem exec_call_of_lt {s : State} (h : s.stack.length < 24) (nnn : Addr12) :
    exec (.call nnn) s = .next { s with stack := s.stack ++ [s.pc + 2#16], pc := addrOf nnn } := by
  simp [exec, execCall, push_of_lt h]

theorem exec_call_of_ge {s : State} (h : 24 ≤ s.stack.length) (nnn : Addr12) :
    exec (.call nnn) s = .next { s with fault := some .stackOverflow } := by
  simp [exec, execCall, push_of_ge h]

/-! ### Skips -/

/-- PC is advanced by 4 where `p` holds and by 2 where it does not, and nothing else changes. -/
def SkipsWhen (p : Prop) [Decidable p] (s t : State) : Prop :=
  t.pc = s.pc + (if p then 4#16 else 2#16) ∧ SameRegsExcept [] s t ∧ SameExcept [] s t

/-- A skip on a Boolean test skips when what the test decides holds. -/
theorem skipsWhen_skipIf (s : State) {c : Bool} {p : Prop} [Decidable p] (h : c = true ↔ p) :
    SkipsWhen p s (s.skipIf c) :=
  ⟨by simp [h], .of_v rfl, .of_regs s s.v _ []⟩

theorem beq_iff_toNat_eq (a b : Byte) : (a == b) = true ↔ a.toNat = b.toNat := by
  rw [beq_iff_eq, BitVec.toNat_inj]

theorem bne_iff_toNat_ne (a b : Byte) : (a != b) = true ↔ a.toNat ≠ b.toNat := by
  rw [bne_iff_ne, Ne, Ne, BitVec.toNat_inj]

end Sys2Proof.Machine
end

section
/-!
SUPPORT. The obligations of the family 41_control_flow.
-/

namespace Sys2Proof.Machine

/-- Settles O31: return pops the entry that call pushed, so of the state before the call only PC is changed. -/
theorem callThenReturnRestores : Obligations.CallThenReturnRestores :=
  fun nnn s hlt => ⟨_, _, exec_call_of_lt hlt nnn, exec_ret_of_append rfl, rfl, rfl, .of_v rfl, .of_regs s s.v _ []⟩

/-- Settles O28, by the two cases of the stack. -/
theorem returnPops : Obligations.ReturnPops :=
  ⟨fun s l a hs => ⟨_, exec_ret_of_append hs, rfl, rfl, .of_v rfl, .of_stack s l a _ (by decide)⟩,
    fun _ => exec_ret_of_nil⟩

/-- Settles O29, by the zero extension of nnn. -/
theorem jumpLoadsTarget : Obligations.JumpLoadsTarget :=
  fun nnn s => ⟨_, rfl, addrOf_toNat nnn, .of_v rfl, .of_regs s s.v _ []⟩

/-- Settles O30, by the two cases of a push. -/
theorem callPushesReturnAddress : Obligations.CallPushesReturnAddress :=
  fun nnn s =>
    ⟨fun hlt => ⟨_, exec_call_of_lt hlt nnn, addrOf_toNat nnn, rfl, .of_v rfl, .of_stack s _ _ _ (by decide)⟩,
      fun hge => exec_call_of_ge hge nnn⟩

/-- Settles O32: each of the four is a skip whose test decides the unsigned comparison. -/
theorem compareSkips : Obligations.CompareSkips :=
  fun x y kk s =>
    ⟨⟨_, rfl, skipsWhen_skipIf s (beq_iff_toNat_eq (s.getV x) kk)⟩,
      ⟨_, rfl, skipsWhen_skipIf s (bne_iff_toNat_ne (s.getV x) kk)⟩,
      ⟨_, rfl, skipsWhen_skipIf s (beq_iff_toNat_eq (s.getV x) (s.getV y))⟩,
      ⟨_, rfl, skipsWhen_skipIf s (bne_iff_toNat_ne (s.getV x) (s.getV y))⟩⟩

/-- Settles O33: the sum of nnn and V0 stays below 65536, so it is exact. -/
theorem jumpOffsetAddsV0 : Obligations.JumpOffsetAddsV0 :=
  fun nnn s => ⟨_, rfl, jumpOffset_toNat nnn (s.getV 0#4), .of_v rfl, .of_regs s s.v _ []⟩

end Sys2Proof.Machine
end

section
/-!
SUPPORT. The ALU instructions (spec/42_alu.md R119 to R132): one equation for what each answers, the registers and the
frame after the one write or the two, and the flags and the results as numbers.
-/

namespace Sys2Proof.Machine

/-! ### What each instruction answers -/

theorem exec_setImm (x : Nibble) (kk : Byte) (s : State) :
    exec (.setImm x kk) s = .next (s.setV x kk).nextInstr := rfl

theorem exec_addImm (x : Nibble) (kk : Byte) (s : State) :
    exec (.addImm x kk) s = .next (s.setV x (s.getV x + kk)).nextInstr := rfl

theorem exec_move (x y : Nibble) (s : State) : exec (.move x y) s = .next (s.setV x (s.getV y)).nextInstr := rfl

theorem exec_or (x y : Nibble) (s : State) :
    exec (.or x y) s = .next (s.setV x (s.getV x ||| s.getV y)).nextInstr := rfl

theorem exec_and (x y : Nibble) (s : State) :
    exec (.and x y) s = .next (s.setV x (s.getV x &&& s.getV y)).nextInstr := rfl

theorem exec_xor (x y : Nibble) (s : State) :
    exec (.xor x y) s = .next (s.setV x (s.getV x ^^^ s.getV y)).nextInstr := rfl

theorem exec_addReg (x y : Nibble) (s : State) :
    exec (.addReg x y) s =
      .next (resultThenFlag s x (s.getV x + s.getV y) (carryOut (s.getV x) (s.getV y))).nextInstr := rfl

theorem exec_subReg (x y : Nibble) (s : State) :
    exec (.subReg x y) s =
      .next (resultThenFlag s x (s.getV x - s.getV y) (noBorrow (s.getV x) (s.getV y))).nextInstr := rfl

theorem exec_subRegRev (x y : Nibble) (s : State) :
    exec (.subRegRev x y) s =
      .next (resultThenFlag s x (s.getV y - s.getV x) (noBorrow (s.getV y) (s.getV x))).nextInstr := rfl

/-- Which of Vx and Vy a shift reads (R129, R131), as the statements write it. -/
theorem shiftSource_eq (src : ShiftSrc) (a b : Byte) : shiftSource src a b = if src = .vx then a else b := by
  cases src <;> rfl

theorem exec_shiftRight (x y : Nibble) (s : State) {b : Byte}
    (hb : b = if Config.shiftSrc = .vx then s.getV x else s.getV y) :
    exec (.shiftRight x y) s = .next (flagThenResult s x (b >>> 1) (lowBit b)).nextInstr := by
  rw [hb, ← shiftSource_eq]
  rfl

theorem exec_shiftLeft (x y : Nibble) (s : State) {b : Byte}
    (hb : b = if Config.shiftSrc = .vx then s.getV x else s.getV y) :
    exec (.shiftLeft x y) s = .next (flagThenResult s x (b <<< 1) (highBit b)).nextInstr := by
  rw [hb, ← shiftSource_eq]
  rfl

theorem exec_random (x : Nibble) (kk : Byte) (s : State) :
    exec (.random x kk) s =
      .next (State.setV { s with draws := s.draws + 1 } x (Config.draw s.draws &&& kk)).nextInstr := rfl

/-! ### The registers and the frame after the writes -/

/-- The registers, PC and the other parts after an instruction whose rule names no fault, by the inversion of `exec`. -/
theorem exec_frame {i : Instr} {s t : State} (h : exec i s = .next t) (hf : .fault ∉ partsWritten i) :
    SameRegsExcept (regsWritten i) s t ∧ t.pc = pcAfter i s ∧ SameExcept (partsWritten i) s t := by
  rcases exec_cases h with hc | ⟨hm, -⟩
  · exact ⟨hc.regs, hc.pc, hc.parts⟩
  · exact absurd hm hf

theorem State.getV_setV_nextInstr (s : State) (x : Nibble) (b : Byte) : (s.setV x b).nextInstr.getV x = b :=
  s.getV_setV_self x b

section
variable {i : Instr} {s : State} {x : Nibble} {r : Byte}

/-- One register written: Vx holds the result. -/
theorem exec_writes_result (h : exec i s = .next (s.setV x r).nextInstr) (hf : .fault ∉ partsWritten i) :
    ∃ t, exec i s = .next t ∧ t.getV x = r ∧
      SameRegsExcept (regsWritten i) s t ∧ t.pc = pcAfter i s ∧ SameExcept (partsWritten i) s t :=
  ⟨_, h, s.getV_setV_nextInstr x r, exec_frame h hf⟩

/-- The flag written last (R126): VF holds it for every x, and the result stays in any other Vx. -/
theorem exec_writes_resultThenFlag {f : Bool} (h : exec i s = .next (resultThenFlag s x r f).nextInstr)
    (hf : .fault ∉ partsWritten i) :
    ∃ t, exec i s = .next t ∧ (x ≠ 15#4 → t.getV x = r) ∧ t.getV 15#4 = flagByte f ∧
      SameRegsExcept (regsWritten i) s t ∧ t.pc = pcAfter i s ∧ SameExcept (partsWritten i) s t := by
  refine ⟨_, h, fun hx => ?_, ?_, exec_frame h hf⟩ <;>
    rw [State.nextInstr_eq, State.getV_advance, getV_resultThenFlag]
  · rw [if_neg hx, if_pos rfl]
  · rw [if_pos rfl]

/-- The result written last (R126): Vx holds it for every x, and the flag stays in VF for any other x. -/
theorem exec_writes_flagThenResult {f : Bool} (h : exec i s = .next (flagThenResult s x r f).nextInstr)
    (hf : .fault ∉ partsWritten i) :
    ∃ t, exec i s = .next t ∧ t.getV x = r ∧ (x ≠ 15#4 → t.getV 15#4 = flagByte f) ∧
      SameRegsExcept (regsWritten i) s t ∧ t.pc = pcAfter i s ∧ SameExcept (partsWritten i) s t := by
  refine ⟨_, h, ?_, fun hx => ?_, exec_frame h hf⟩ <;>
    rw [State.nextInstr_eq, State.getV_advance, getV_flagThenResult]
  · rw [if_pos rfl]
  · rw [if_neg hx.symm, if_pos rfl]

end

/-! ### Flags and results as numbers -/

theorem carryOut_toNat (a b : Byte) :
    (flagByte (carryOut a b)).toNat = if 255 < a.toNat + b.toNat then 1 else 0 := by
  simp only [flagByte_toNat, carryOut_iff]

theorem noBorrow_toNat (a b : Byte) : (flagByte (noBorrow a b)).toNat = if b.toNat ≤ a.toNat then 1 else 0 := by
  simp only [flagByte_toNat, noBorrow_iff]

/-- A difference of bytes, also where it borrows, is the integer difference modulo 256. -/
theorem sub_toNat_emod (a b : Byte) : ((a - b).toNat : Int) = ((a.toNat : Int) - b.toNat) % 256 := by
  have := b.isLt
  rw [BitVec.toNat_sub]
  omega

theorem shiftRight_one_toNat (b : Byte) : (b >>> 1).toNat = b.toNat / 2 := by
  rw [BitVec.toNat_ushiftRight, Nat.shiftRight_eq_div_pow, Nat.pow_one]

theorem shiftLeft_one_toNat (b : Byte) : (b <<< 1).toNat = b.toNat * 2 % 256 := by
  rw [BitVec.toNat_shiftLeft, Nat.shiftLeft_eq, Nat.pow_one]

end Sys2Proof.Machine
end

section
/-!
SUPPORT. The obligations of the family 42_alu.
-/

namespace Sys2Proof.Machine

/-- Settles O38: the carry is the flag, written last. -/
theorem addRegSumAndCarry : Obligations.AddRegSumAndCarry := by
  intro x y s
  obtain ⟨t, ht, hsum, hcarry, hframe⟩ := exec_writes_resultThenFlag (exec_addReg x y s) List.not_mem_nil
  exact ⟨t, ht, fun hx => by rw [hsum hx, BitVec.toNat_add], by rw [hcarry, carryOut_toNat], hframe⟩

/-- Settles O39: NOT borrow is the flag, written last. -/
theorem subRegDifferenceAndNoBorrow : Obligations.SubRegDifferenceAndNoBorrow := by
  intro x y s
  obtain ⟨t, ht, hdiff, hflag, hframe⟩ := exec_writes_resultThenFlag (exec_subReg x y s) List.not_mem_nil
  exact ⟨t, ht, fun hx => by rw [hdiff hx, sub_toNat_emod], by rw [hflag, noBorrow_toNat], hframe⟩

/-- Settles O40, as O39 with the operands exchanged. -/
theorem subRegRevDifferenceAndNoBorrow : Obligations.SubRegRevDifferenceAndNoBorrow := by
  intro x y s
  obtain ⟨t, ht, hdiff, hflag, hframe⟩ := exec_writes_resultThenFlag (exec_subRegRev x y s) List.not_mem_nil
  exact ⟨t, ht, fun hx => by rw [hdiff hx, sub_toNat_emod], by rw [hflag, noBorrow_toNat], hframe⟩

/-- Settles O41: the half is written last, after the bit shifted out. -/
theorem shiftRightHalvesSource : Obligations.ShiftRightHalvesSource := by
  intro x y s b
  obtain ⟨t, ht, hhalf, hflag, hframe⟩ := exec_writes_flagThenResult (exec_shiftRight x y s (b := b) rfl)
    List.not_mem_nil
  exact ⟨t, ht, by rw [hhalf, shiftRight_one_toNat], fun hx => by rw [hflag hx, lowBit_toNat], hframe⟩

/-- Settles O42: the double is written last, after the bit shifted out. -/
theorem shiftLeftDoublesSource : Obligations.ShiftLeftDoublesSource := by
  intro x y s b
  obtain ⟨t, ht, hdouble, hflag, hframe⟩ := exec_writes_flagThenResult (exec_shiftLeft x y s (b := b) rfl)
    List.not_mem_nil
  exact ⟨t, ht, by rw [hdouble, shiftLeft_one_toNat], fun hx => by rw [hflag hx, highBit_toNat], hframe⟩

/-- Settles O34: the immediate is the one result written. -/
theorem setImmWritesRegister : Obligations.SetImmWritesRegister :=
  fun x kk s => exec_writes_result (exec_setImm x kk s) List.not_mem_nil

/-- Settles O35: addition of bytes is modulo 256, and no flag is written. -/
theorem addImmWraps : Obligations.AddImmWraps := by
  intro x kk s
  obtain ⟨t, ht, hsum, hframe⟩ := exec_writes_result (exec_addImm x kk s) List.not_mem_nil
  exact ⟨t, ht, by rw [hsum, BitVec.toNat_add], hframe⟩

/-- Settles O36: the old Vy is the one result written. -/
theorem moveCopiesRegister : Obligations.MoveCopiesRegister :=
  fun x y s => exec_writes_result (exec_move x y s) List.not_mem_nil

/-- Settles O37: Vx alone is written, with the operation of the two bytes, which acts on each bit by itself. -/
theorem logicalInstructions : Obligations.LogicalInstructions := by
  intro x y s
  refine ⟨?_, ?_, ?_⟩
  · obtain ⟨t, ht, hor, hframe⟩ := exec_writes_result (exec_or x y s) List.not_mem_nil
    exact ⟨t, ht, fun k => by rw [hor, BitVec.getLsbD_or], hframe⟩
  · obtain ⟨t, ht, hand, hframe⟩ := exec_writes_result (exec_and x y s) List.not_mem_nil
    exact ⟨t, ht, fun k => by rw [hand, BitVec.getLsbD_and], hframe⟩
  · obtain ⟨t, ht, hxor, hframe⟩ := exec_writes_result (exec_xor x y s) List.not_mem_nil
    exact ⟨t, ht, fun k => by rw [hxor, BitVec.getLsbD_xor], hframe⟩

/-- Settles O43: Vx is the draw under the mask kk, so a bit that kk lacks is 0 whatever was drawn. -/
theorem randomIsMaskedByImmediate : Obligations.RandomIsMaskedByImmediate := by
  intro x kk s
  have h := exec_random x kk s
  refine ⟨_, Config.draw s.draws, h, State.getV_setV_nextInstr _ x _, rfl, fun k hk => ?_, rfl,
    exec_frame h (by simp [partsWritten])⟩
  rw [State.getV_setV_nextInstr, BitVec.getLsbD_and, hk, Bool.and_false]

end Sys2Proof.Machine
end

section
/-!
SUPPORT. The index and memory instructions (spec/43_index_memory.md R140 to R148): reading and writing bytes on each
side of the memory's end, and what each instruction answers, one equation per case.
-/

namespace Sys2Proof.Machine

/-! ### Bytes in range and out of range -/

theorem writeBytes_of_le {s : State} {a : Nat} {bs : List Byte} (h : a + bs.length ≤ 4096) :
    ∃ m, writeBytes s a bs = .ok { s with mem := m } ∧ BytesWritten s { s with mem := m } a bs := by
  rcases writeBytes_cases s a bs with ⟨-, t, ht, hw⟩ | ⟨⟨hgt, -⟩, -⟩
  · obtain ⟨m, rfl, -⟩ := hw.exists_mem
    exact ⟨m, ht, hw⟩
  · omega

theorem writeBytes_of_gt {s : State} {a : Nat} {bs : List Byte} (h : 4096 < a + bs.length) (hbs : bs ≠ []) :
    writeBytes s a bs = .error .outOfRangeAccess := by
  rcases writeBytes_cases s a bs with ⟨hle | hnil, -⟩ | ⟨-, he⟩
  · omega
  · exact absurd hnil hbs
  · exact he

theorem readBytes_of_le {s : State} {a n : Nat} (h : a + n ≤ 4096) :
    ∃ bs, readBytes s a n = .ok bs ∧ bs.length = n ∧ ∀ k, k < n → memRead s (a + k) = .ok (bs.getD k 0) := by
  rcases readBytes_cases s a n with ⟨-, hr⟩ | ⟨⟨hgt, -⟩, -⟩
  · exact hr
  · omega

theorem readBytes_of_gt {s : State} {a n : Nat} (h : 4096 < a + n) (hn : n ≠ 0) :
    readBytes s a n = .error .outOfRangeAccess := by
  rcases readBytes_cases s a n with ⟨hle, -⟩ | ⟨-, he⟩
  · omega
  · exact he

theorem BytesWritten.read_written {s t : State} {a : Nat} {bs : List Byte} (h : BytesWritten s t a bs) {k : Nat}
    (hk : k < bs.length) : memRead t (a + k) = .ok (bs.getD k 0) := by
  rw [h.read, if_pos (by omega), Nat.add_sub_cancel_left]

theorem BytesWritten.read_outside {s t : State} {a : Nat} {bs : List Byte} (h : BytesWritten s t a bs) {a' : Nat}
    (ha : a' < a ∨ a + bs.length ≤ a') : memRead t a' = memRead s a' := by
  rw [h.read, if_neg (by omega)]

/-! ### The bytes and registers that are moved -/

theorem exists_bcdDigits (b : Byte) :
    ∃ h d o, bcdDigits b = [h, d, o] ∧
      h.toNat = b.toNat / 100 ∧ d.toNat = b.toNat / 10 % 10 ∧ o.toNat = b.toNat % 10 := by
  have hdigits := bcdDigits_toNat b
  simp only [bcdDigits, List.map_cons, List.cons.injEq, List.map_nil, and_true] at hdigits
  exact ⟨_, _, _, rfl, hdigits⟩

/-- Of the block V0 to Vx, the byte at offset `j` is Vj. -/
theorem registersFrom_block (s : State) {x j : Nibble} (hj : j ≤ x) :
    (registersFrom s 0 (blockLength x)).getD j.toNat 0 = s.getV j := by
  have hlt : j.toNat < blockLength x := Nat.lt_succ_of_le hj
  rw [registersFrom_getD s 0 _ _ hlt, Nat.zero_add, BitVec.ofNat_toNat, BitVec.setWidth_eq]

/-- Of bytes put into V0 to Vx, Vj takes the one at offset `j`, and the registers above Vx stay. -/
theorem getV_setRegistersFrom_block (s : State) (x : Nibble) {bs : List Byte} (h : bs.length = blockLength x)
    (j : Nibble) : (setRegistersFrom s 0 bs).getV j = if j ≤ x then bs.getD j.toNat 0 else s.getV j := by
  have hx := x.isLt
  rw [blockLength] at h
  rw [getV_setRegistersFrom s 0 bs (by omega), h, Nat.sub_zero]
  have hiff : 0 ≤ j.toNat ∧ j.toNat < 0 + (x.toNat + 1) ↔ j ≤ x := by rw [BitVec.le_def]; omega
  simp only [hiff]

/-! ### What each instruction answers -/

theorem exec_setIndex (nnn : Addr12) (s : State) :
    exec (.setIndex nnn) s = .next (State.nextInstr { s with idx := addrOf nnn }) := rfl

theorem exec_addToIndex (x : Nibble) (s : State) :
    exec (.addToIndex x) s = .next (State.nextInstr { s with idx := s.idx + byteToWord (s.getV x) }) := rfl

theorem exec_fontCharAddress (x : Nibble) (s : State) :
    exec (.fontCharAddress x) s =
      .next (State.nextInstr { s with idx := BitVec.ofNat 16 ((s.getV x).toNat * 5) }) := rfl

/-- I written: it holds the new value, and beside it PC alone is changed. -/
theorem exec_writes_idx {i : Instr} {s : State} {a : Word}
    (h : exec i s = .next (State.nextInstr { s with idx := a })) :
    ∃ t, exec i s = .next t ∧ t.idx = a ∧ SameRegsExcept [] s t ∧ t.pc = s.pc + 2#16 ∧ SameExcept [.idx] s t :=
  ⟨_, h, rfl, .of_v rfl, rfl, .of_idx s a s.v _ _ (by decide)⟩

theorem exec_storeBcd_of_lt {s : State} (h : s.idx.toNat + 2 < 4096) (x : Nibble) :
    ∃ m, exec (.storeBcd x) s = .next (State.nextInstr { s with mem := m }) ∧
      BytesWritten s { s with mem := m } s.idx.toNat (bcdDigits (s.getV x)) := by
  obtain ⟨m, ht, hw⟩ := writeBytes_of_le (s := s) (bs := bcdDigits (s.getV x)) h
  exact ⟨m, by simp only [exec, execStoreBcd, dataAddr_zero, ht, commit_ok], hw⟩

theorem exec_storeBcd_of_ge {s : State} (h : 4096 ≤ s.idx.toNat + 2) (x : Nibble) :
    exec (.storeBcd x) s = .next { s with fault := some .outOfRangeAccess } := by
  have he := writeBytes_of_gt (s := s) (bs := bcdDigits (s.getV x)) (Nat.lt_succ_of_le h) (List.cons_ne_nil _ _)
  simp only [exec, execStoreBcd, dataAddr_zero, he, commit_error]

theorem exec_blockStore_of_lt {s : State} {x : Nibble} (h : s.idx.toNat + x.toNat < 4096) :
    ∃ m, exec (.blockStore x) s =
        .next (State.nextInstr { s with mem := m, idx := indexAfterBlock Config.memIncrement s.idx x }) ∧
      BytesWritten s { s with mem := m } s.idx.toNat (registersFrom s 0 (blockLength x)) := by
  obtain ⟨m, ht, hw⟩ := writeBytes_of_le (s := s) (a := s.idx.toNat) (bs := registersFrom s 0 (blockLength x))
    (by rw [registersFrom_length]; exact h)
  exact ⟨m, by simp only [exec, execBlockStore, blockStoreWith, dataAddr_zero, ht, commit_ok], hw⟩

theorem exec_blockStore_of_ge {s : State} {x : Nibble} (h : 4096 ≤ s.idx.toNat + x.toNat) :
    exec (.blockStore x) s = .next { s with fault := some .outOfRangeAccess } := by
  have he := writeBytes_of_gt (s := s) (a := s.idx.toNat) (bs := registersFrom s 0 (blockLength x))
    (by rw [registersFrom_length]; exact Nat.lt_succ_of_le h) (List.cons_ne_nil _ _)
  simp only [exec, execBlockStore, blockStoreWith, dataAddr_zero, he, commit_error]

theorem exec_blockLoad_of_lt {s : State} {x : Nibble} (h : s.idx.toNat + x.toNat < 4096) :
    ∃ bs, exec (.blockLoad x) s =
        .next (State.nextInstr
          { setRegistersFrom s 0 bs with idx := indexAfterBlock Config.memIncrement s.idx x }) ∧
      bs.length = blockLength x ∧
      ∀ j : Nibble, j ≤ x → memRead s (s.idx.toNat + j.toNat) = .ok (bs.getD j.toNat 0) := by
  obtain ⟨bs, hr, hlen, hread⟩ := readBytes_of_le (s := s) (a := s.idx.toNat) (n := blockLength x) h
  exact ⟨bs, by simp only [exec, execBlockLoad, blockLoadWith, dataAddr_zero, hr, commit_ok], hlen,
    fun j hj => hread j.toNat (Nat.lt_succ_of_le hj)⟩

theorem exec_blockLoad_of_ge {s : State} {x : Nibble} (h : 4096 ≤ s.idx.toNat + x.toNat) :
    exec (.blockLoad x) s = .next { s with fault := some .outOfRangeAccess } := by
  have he := readBytes_of_gt (s := s) (a := s.idx.toNat) (n := blockLength x) (Nat.lt_succ_of_le h)
    (Nat.succ_ne_zero _)
  simp only [exec, execBlockLoad, blockLoadWith, dataAddr_zero, he, commit_error]

/-! ### The frame of a store that also moves I -/

theorem SameExcept.of_mem_idx (s : State) (m : Memory) (a pc : Word) {ps : List Part} (hm : .mem ∈ ps)
    (hi : .idx ∈ ps) : SameExcept ps s { s with mem := m, idx := a, pc := pc } :=
  (SameExcept.of_mem s m s.pc hm).trans (.of_idx _ _ _ _ _ hi)

end Sys2Proof.Machine
end

section
/-!
SUPPORT. The obligations of the family 43_index_memory.
-/

namespace Sys2Proof.Machine

/-- Settles O47: in range the three digits are written and every other byte stays; else the write faults. -/
theorem storeBcdWritesDigits : Obligations.StoreBcdWritesDigits := by
  refine fun x s => ⟨fun hlt => ?_, fun hge => exec_storeBcd_of_ge hge x⟩
  obtain ⟨m, hexec, hw⟩ := exec_storeBcd_of_lt hlt x
  obtain ⟨h, d, o, hdigits, hh, hd, ho⟩ := exists_bcdDigits (s.getV x)
  rw [hdigits] at hw
  have hread (k : Nat) (hk : k < 3) := hw.read_written hk
  exact ⟨_, h, d, o, hexec, hread 0 (by decide), hread 1 (by decide), hread 2 (by decide), hh, hd, ho,
    fun _ => hw.read_outside, .of_v rfl, rfl, .of_mem s m _ (by decide)⟩

/-- Settles O48: in range V0 to Vx are written and every other byte stays; else the write faults. -/
theorem blockStoreWritesRegisters : Obligations.BlockStoreWritesRegisters := by
  refine fun x s => ⟨fun hlt => ?_, exec_blockStore_of_ge⟩
  obtain ⟨m, hexec, hw⟩ := exec_blockStore_of_lt hlt
  have hlen : (registersFrom s 0 (blockLength x)).length = x.toNat + 1 := registersFrom_length s 0 _
  refine ⟨_, hexec, fun j hj => ?_, fun a ha => ?_, indexAfterBlock_toNat _ _ x, .of_v rfl, rfl,
    .of_mem_idx s m _ _ (by decide) (by decide)⟩
  · rw [← registersFrom_block s hj]
    exact hw.read_written (hlen ▸ Nat.lt_succ_of_le hj)
  · exact hw.read_outside (hlen ▸ ha)

/-- Settles O49: in range V0 to Vx take the bytes read, the registers above Vx stay; else the read faults. -/
theorem blockLoadReadsRegisters : Obligations.BlockLoadReadsRegisters := by
  refine fun x s => ⟨fun hlt => ?_, exec_blockLoad_of_ge⟩
  obtain ⟨bs, hexec, hlen, hread⟩ := exec_blockLoad_of_lt hlt
  have hreg := getV_setRegistersFrom_block s x hlen
  rw [setRegistersFrom_rest] at hexec hreg
  refine ⟨_, hexec, fun j hj => (hread j hj).trans ?_, fun j hj => ?_, indexAfterBlock_toNat _ _ x, rfl,
    .of_idx s _ _ _ _ (by decide)⟩
  · exact congrArg Except.ok ((hreg j).trans (if_pos hj)).symm
  · exact (hreg j).trans (if_neg (BitVec.not_le.2 hj))

/-- Settles O44, by the zero extension of nnn. -/
theorem setIndexLoadsAddress : Obligations.SetIndexLoadsAddress := by
  intro nnn s
  obtain ⟨t, ht, hidx, hframe⟩ := exec_writes_idx (exec_setIndex nnn s)
  exact ⟨t, ht, by rw [hidx, addrOf_toNat], hframe⟩

/-- Settles O45: addition of words is modulo 65536, and no flag is written. -/
theorem addToIndexWraps : Obligations.AddToIndexWraps := by
  intro x s
  obtain ⟨t, ht, hsum, hframe⟩ := exec_writes_idx (exec_addToIndex x s)
  exact ⟨t, ht, by rw [hsum, BitVec.toNat_add, byteToWord_toNat], hframe⟩

/-- Settles O46: five times a byte stays below 65536, so it is exact. -/
theorem fontCharAddressIsFiveTimes : Obligations.FontCharAddressIsFiveTimes := by
  intro x s
  obtain ⟨t, ht, hidx, hframe⟩ := exec_writes_idx (exec_fontCharAddress x s)
  have hbyte := (s.getV x).isLt
  exact ⟨t, ht, by rw [hidx, BitVec.toNat_ofNat]; omega, hframe⟩

end Sys2Proof.Machine
end

section
/-!
SUPPORT. Drawing as the XOR with an image (spec/44_display.md R162, R164): what a part of the blitter does is said once
by `Draws`, from one pixel over the pixels of a row to the rows of a sprite, and what the two instructions answer.
-/

namespace Sys2Proof.Machine

/-! ### Drawing an image -/

/-- The blitter gets from `acc` to `acc'` by drawing `img`: the cells take the XOR with it, and a collision is one
reported before or a cell at 1 under a 1 bit of it. -/
structure Draws (img : Fin 32 → Fin 64 → Bool) (acc acc' : Framebuffer × Bool) : Prop where
  cell : ∀ r c, acc'.1.cell r c = (acc.1.cell r c ^^ img r c)
  collided : acc'.2 = true ↔ acc.2 = true ∨ ∃ r c, acc.1.cell r c = true ∧ img r c = true

/-- The empty image. -/
theorem Draws.refl (acc : Framebuffer × Bool) : Draws (fun _ _ => false) acc acc :=
  ⟨by simp, by simp⟩

/-- Two images without a common cell, one after the other, are their union. -/
theorem Draws.trans {img₁ img₂ img : Fin 32 → Fin 64 → Bool} {a b d : Framebuffer × Bool} (h₁ : Draws img₁ a b)
    (h₂ : Draws img₂ b d) (hdisj : ∀ r c, img₁ r c = true → img₂ r c = false)
    (himg : ∀ r c, img r c = (img₁ r c || img₂ r c)) : Draws img a d := by
  refine ⟨fun r c => ?_, ?_⟩
  · rw [h₂.cell, h₁.cell, himg]
    cases h : img₁ r c with
    | true => simp [hdisj r c h]
    | false => simp
  · rw [h₂.collided, h₁.collided, or_assoc]
    refine or_congr_right ?_
    simp only [← exists_or]
    refine exists₂_congr fun r c => ?_
    rw [h₁.cell, himg]
    cases h : img₁ r c with
    | true => simp [hdisj r c h]
    | false => simp

/-! ### Pixels and rows -/

/-- How many rows the cell's row lies below the corner's, around the edge. -/
def rowOffset (y0 : Nat) (r : Fin 32) : Nat := (r.val + 32 - y0 % 32) % 32

/-- How many columns the cell's column lies right of the corner's, around the edge. -/
def colOffset (x0 : Nat) (c : Fin 64) : Nat := (c.val + 64 - x0 % 64) % 64

theorem spriteBit_eq (rows : List Byte) (x0 y0 : Nat) (r : Fin 32) (c : Fin 64) :
    spriteBit rows x0 y0 r c =
      (decide (colOffset x0 c < 8) && (rows.getD (rowOffset y0 r) 0).getLsbD (7 - colOffset x0 c)) := by
  by_cases h : colOffset x0 c < 8
  · rw [decide_eq_true h, Bool.true_and]; exact if_pos h
  · rw [decide_eq_false h, Bool.false_and]; exact if_neg h

theorem eq_wrapRow_iff (y : Nat) (r : Fin 32) : r = wrapRow y ↔ rowOffset y r = 0 := by
  have := r.isLt
  simp only [wrapRow, Fin.ext_iff, Fin.val_ofNat, rowOffset]
  omega

theorem eq_wrapCol_iff (x0 : Nat) {b : Nat} (hb : b < 64) (c : Fin 64) :
    c = wrapCol (x0 + b) ↔ colOffset x0 c = b := by
  have := c.isLt
  simp only [wrapCol, Fin.ext_iff, Fin.val_ofNat, colOffset]
  omega

/-- Of the row `row` drawn at column `x0`, row `y`: the pixels numbered in `bs`, pixel b taking bit 7 - b. -/
def pixelsImage (row : Byte) (x0 y : Nat) (bs : List Nat) (r : Fin 32) (c : Fin 64) : Bool :=
  decide (rowOffset y r = 0 ∧ colOffset x0 c ∈ bs) && row.getLsbD (7 - colOffset x0 c)

theorem drawPixel_draws (row : Byte) (x0 y : Nat) {b : Nat} (hb : b < 64) (acc : Framebuffer × Bool) :
    Draws (pixelsImage row x0 y [b]) acc (drawPixel (row.getLsbD (7 - b)) (x0 + b) y acc) := by
  have himg (r : Fin 32) (c : Fin 64) : pixelsImage row x0 y [b] r c =
      (decide (r = wrapRow y ∧ c = wrapCol (x0 + b)) && row.getLsbD (7 - b)) := by
    simp only [pixelsImage, eq_wrapRow_iff, eq_wrapCol_iff x0 hb, List.mem_singleton]
    by_cases hc : colOffset x0 c = b
    · rw [hc]
    · simp [hc]
  refine ⟨fun r c => ?_, ?_⟩
  · rw [drawPixel_cell, himg]
  · rw [drawPixel_collided]
    simp [himg, and_assoc]

theorem drawPixels_draws (row : Byte) (x0 y : Nat) {bs : List Nat} (hnodup : bs.Nodup) (hlt : ∀ b ∈ bs, b < 64)
    (acc : Framebuffer × Bool) :
    Draws (pixelsImage row x0 y bs) acc
      (bs.foldl (fun acc b => drawPixel (row.getLsbD (7 - b)) (x0 + b) y acc) acc) := by
  induction bs generalizing acc with
  | nil =>
    have hempty : pixelsImage row x0 y [] = fun _ _ => false := by funext r c; simp [pixelsImage]
    exact hempty ▸ Draws.refl acc
  | cons b bs ih =>
    obtain ⟨hnot, hnodup⟩ := List.nodup_cons.1 hnodup
    obtain ⟨hb, hlt⟩ := List.forall_mem_cons.1 hlt
    refine (drawPixel_draws row x0 y hb acc).trans (ih hnodup hlt _) (fun r c hbit => ?_) (fun r c => ?_)
    · have hc : colOffset x0 c = b := by
        rw [pixelsImage, Bool.and_eq_true, decide_eq_true_iff, List.mem_singleton] at hbit
        exact hbit.1.2
      simp [pixelsImage, hc, hnot]
    · simp only [pixelsImage, List.mem_cons, List.not_mem_nil, or_false, and_or_left, Bool.decide_or,
        Bool.and_or_distrib_right]

/-- The eight pixels are the whole image of a sprite of one row. -/
theorem pixelsImage_eq_spriteBit (row : Byte) (x0 y : Nat) (r : Fin 32) (c : Fin 64) :
    pixelsImage row x0 y [0, 1, 2, 3, 4, 5, 6, 7] r c = spriteBit [row] x0 y r c := by
  have hmem : colOffset x0 c ∈ [0, 1, 2, 3, 4, 5, 6, 7] ↔ colOffset x0 c < 8 := List.mem_range (n := 8)
  rw [spriteBit_eq]
  simp only [pixelsImage, hmem]
  cases hr : rowOffset y r with
  | zero => simp
  | succ k => simp

theorem drawByte_draws (row : Byte) (x0 y : Nat) (acc : Framebuffer × Bool) :
    Draws (spriteBit [row] x0 y) acc (drawByte row x0 y acc) := by
  have h := drawPixels_draws row x0 y (bs := [0, 1, 2, 3, 4, 5, 6, 7]) (by decide) (by decide) acc
  rwa [funext₂ (pixelsImage_eq_spriteBit row x0 y)] at h

/-! ### Sprites -/

theorem rowOffset_succ (y : Nat) (r : Fin 32) :
    rowOffset (y + 1) r = if rowOffset y r = 0 then 31 else rowOffset y r - 1 := by
  have := r.isLt
  unfold rowOffset
  split <;> omega

/-- Off the corner's row a sprite of one row has no bit. -/
theorem spriteBit_singleton_of_ne (row : Byte) (x0 : Nat) {y : Nat} {r : Fin 32} (hr : rowOffset y r ≠ 0)
    (c : Fin 64) : spriteBit [row] x0 y r c = false := by
  rw [spriteBit_eq, List.getD_eq_default _ _ (Nat.pos_of_ne_zero hr)]
  simp

/-- Fewer than 32 rows do not come around to the row above the first. -/
theorem spriteBit_succ_of_eq {rows : List Byte} (h : rows.length < 32) (x0 : Nat) {y : Nat} {r : Fin 32}
    (hr : rowOffset y r = 0) (c : Fin 64) : spriteBit rows x0 (y + 1) r c = false := by
  rw [spriteBit_eq, rowOffset_succ, if_pos hr, List.getD_eq_default _ _ (Nat.le_of_lt_succ h)]
  simp

/-- The image is that of the first row on the corner's row, and that of the rows below elsewhere. -/
theorem spriteBit_cons (row : Byte) (rows : List Byte) (x0 y : Nat) (r : Fin 32) (c : Fin 64) :
    spriteBit (row :: rows) x0 y r c =
      if rowOffset y r = 0 then spriteBit [row] x0 y r c else spriteBit rows x0 (y + 1) r c := by
  simp only [spriteBit_eq, rowOffset_succ]
  cases rowOffset y r with
  | zero => rfl
  | succ k => rfl

theorem drawRows_draws (x0 y : Nat) {rows : List Byte} (h : rows.length ≤ 32) (acc : Framebuffer × Bool) :
    Draws (spriteBit rows x0 y) acc (drawRows x0 y rows acc) := by
  induction rows generalizing y acc with
  | nil =>
    have hempty : spriteBit [] x0 y = fun _ _ => false := by funext r c; simp [spriteBit_eq]
    exact hempty ▸ Draws.refl acc
  | cons row rows ih =>
    refine (drawByte_draws row x0 y acc).trans (ih (y + 1) (Nat.le_of_succ_le h) _) (fun r c hbit => ?_)
      (fun r c => ?_)
    · by_cases hr : rowOffset y r = 0
      · exact spriteBit_succ_of_eq h x0 hr c
      · rw [spriteBit_singleton_of_ne row x0 hr] at hbit
        cases hbit
    · rw [spriteBit_cons]
      by_cases hr : rowOffset y r = 0
      · rw [if_pos hr, spriteBit_succ_of_eq h x0 hr, Bool.or_false]
      · rw [if_neg hr, spriteBit_singleton_of_ne row x0 hr, Bool.false_or]

section
variable {rows : List Byte} (h : rows.length ≤ 32) (x0 y0 : Nat) (f : Framebuffer)
include h

/-- The cells after a sprite (R164 (b)). -/
theorem drawSprite_cell (r : Fin 32) (c : Fin 64) :
    (drawSprite rows x0 y0 f).1.cell r c = (f.cell r c ^^ spriteBit rows x0 y0 r c) :=
  (drawRows_draws x0 y0 h (f, false)).cell r c

/-- When a sprite collides, by its image. -/
theorem drawSprite_collided_iff : (drawSprite rows x0 y0 f).2 = true ↔
    ∃ r c, f.cell r c = true ∧ spriteBit rows x0 y0 r c = true := by
  rw [drawSprite, (drawRows_draws x0 y0 h (f, false)).collided]
  simp

/-- When a sprite collides, by the cells before and after (R162). -/
theorem drawSprite_collided_iff_cleared : (drawSprite rows x0 y0 f).2 = true ↔
    ∃ r c, f.cell r c = true ∧ (drawSprite rows x0 y0 f).1.cell r c = false := by
  rw [drawSprite_collided_iff h]
  refine exists₂_congr fun r c => and_congr_right fun hcell => ?_
  rw [drawSprite_cell h, hcell, Bool.true_xor, Bool.not_eq_false']

end

/-! ### What the two instructions answer -/

theorem exec_clearScreen (s : State) :
    exec .clearScreen s = .next (State.nextInstr { s with fb := Framebuffer.clear }) := rfl

theorem exec_draw_of_le {n : Nibble} {s : State} (h : n = 0#4 ∨ s.idx.toNat + n.toNat ≤ 4096) (x y : Nibble) :
    ∃ rows, rows.length = n.toNat ∧ (∀ k, k < n.toNat → memRead s (s.idx.toNat + k) = .ok (rows.getD k 0)) ∧
      exec (.draw x y n) s =
        .next (State.setV { s with fb := (drawSprite rows (s.getV x).toNat (s.getV y).toNat s.fb).1 } 15#4
          (flagByte (drawSprite rows (s.getV x).toNat (s.getV y).toNat s.fb).2)).nextInstr := by
  rcases readBytes_cases s s.idx.toNat n.toNat with ⟨-, rows, hr, hlen, hread⟩ | ⟨⟨hgt, hn⟩, -⟩
  · exact ⟨rows, hlen, hread, by simp only [exec, execDraw, dataAddr_zero, hr, commit_ok, vfIndex]⟩
  · rcases h with rfl | hle
    · exact absurd rfl hn
    · omega

theorem exec_draw_of_gt {n : Nibble} {s : State} (hn : n ≠ 0#4) (h : 4096 < s.idx.toNat + n.toNat) (x y : Nibble) :
    exec (.draw x y n) s = .next { s with fault := some .outOfRangeAccess } := by
  have he := readBytes_of_gt (s := s) h fun h0 => hn (BitVec.eq_of_toNat_eq h0)
  simp only [exec, execDraw, dataAddr_zero, he, commit_error]

end Sys2Proof.Machine
end

section
/-!
SUPPORT. The obligations of the family 44_display.
-/

namespace Sys2Proof.Machine

/-- Settles O51, by what the blitter's loop over the rows draws. -/
theorem blitterXorsWrappedImage : Obligations.BlitterXorsWrappedImage :=
  fun _ x0 y0 f h => ⟨drawSprite_cell h x0 y0 f, drawSprite_collided_iff h x0 y0 f⟩

/-- Settles O52, by the two cases of reading the rows; VF tells whether a cell was cleared. -/
theorem drawUpdatesDisplayAndVf : Obligations.DrawUpdatesDisplayAndVf := by
  refine fun x y n s => ⟨fun hin => ?_, fun ⟨hn, hgt⟩ => exec_draw_of_gt hn hgt x y⟩
  obtain ⟨rows, hlen, hread, hexec⟩ := exec_draw_of_le hin x y
  have hle : rows.length ≤ 32 := by have := n.isLt; omega
  have hcleared := drawSprite_collided_iff_cleared hle (s.getV x).toNat (s.getV y).toNat s.fb
  refine ⟨_, rows, hexec, hlen, hread, drawSprite_cell hle _ _ s.fb, fun hex => ?_, fun hall => ?_,
    (SameRegsExcept.of_v rfl).setV (List.mem_singleton_self _) _, rfl, .of_fb s _ _ _ (by decide)⟩
  · rw [State.getV_setV_nextInstr, hcleared.2 hex]
    rfl
  · have hnone := mt hcleared.1 fun ⟨r, c, hset, hclear⟩ =>
      Bool.false_ne_true (hclear.symm.trans (hall r c hset))
    rw [State.getV_setV_nextInstr, Bool.eq_false_of_not_eq_true hnone]
    rfl

/-- Settles O53: the second XOR with the image undoes the first, and where it is 1 the first inverts the cell. -/
theorem drawingTwiceRestores : Obligations.DrawingTwiceRestores := by
  intro rows x0 y0 f h g
  have hle : rows.length ≤ 32 := Nat.le_trans h (by decide)
  have hg := drawSprite_cell hle x0 y0 f
  refine ⟨Framebuffer.ext_cell fun r c => ?_, ?_⟩
  · rw [drawSprite_cell hle, hg, Bool.xor_assoc, Bool.xor_self, Bool.xor_false]
  · rw [drawSprite_collided_iff hle]
    refine exists₂_congr fun r c => and_congr_left fun hbit => ?_
    rw [hg, hbit, Bool.xor_true, Bool.not_eq_true']

/-- Settles O50: every cell of the cleared display is 0. -/
theorem clearScreenZeroesCells : Obligations.ClearScreenZeroesCells :=
  fun s => ⟨_, exec_clearScreen s, Framebuffer.cell_clear, .of_v rfl, rfl, .of_fb s _ s.v _ (by decide)⟩

end Sys2Proof.Machine
end

section
/-!
SUPPORT. The input and timer instructions (spec/45_input_timers.md R171 to R177): when no latched key matches, where a
skip leaves PC, and what each timer instruction answers.
-/

namespace Sys2Proof.Machine

/-! ### The key test and the skips -/

theorem isPressed_eq_false_iff (s : State) (b : Byte) :
    isPressed s b = false ↔ ∀ k, s.key = some k → k.toNat ≠ b.toNat := by
  rw [← Bool.not_eq_true, isPressed_iff]
  exact not_exists.trans (forall_congr' fun _ => not_and)

theorem State.skipIf_pc_of_true (s : State) {c : Bool} (h : c = true) : (s.skipIf c).pc = s.pc + 4#16 := by
  rw [h]; rfl

theorem State.skipIf_pc_of_false (s : State) {c : Bool} (h : c = false) : (s.skipIf c).pc = s.pc + 2#16 := by
  rw [h]; rfl

theorem exec_skipIfKey (x : Nibble) (s : State) :
    exec (.skipIfKey x) s = .next (s.skipIf (isPressed s (s.getV x))) := rfl

theorem exec_skipIfNotKey (x : Nibble) (s : State) :
    exec (.skipIfNotKey x) s = .next (s.skipIf (!isPressed s (s.getV x))) := rfl

/-! ### The timers -/

theorem exec_readDelayTimer (x : Nibble) (s : State) :
    exec (.readDelayTimer x) s = .next (s.setV x s.dt).nextInstr := rfl

theorem exec_setDelayTimer (x : Nibble) (s : State) :
    exec (.setDelayTimer x) s = .next (State.nextInstr { s with dt := s.getV x }) := rfl

theorem exec_setSoundTimer (x : Nibble) (s : State) :
    exec (.setSoundTimer x) s = .next (State.nextInstr { s with st := s.getV x }) := rfl

end Sys2Proof.Machine
end

section
/-!
SUPPORT. The obligations of the family 45_input_timers.
-/

namespace Sys2Proof.Machine

/-- Settles O54: both skip on the key test or its negation, and the test decides the match with the latched code. -/
theorem keySkips : Obligations.KeySkips := by
  intro x s
  have hpressed := (isPressed_iff s (s.getV x)).2
  have hfree := (isPressed_eq_false_iff s (s.getV x)).2
  refine ⟨⟨_, exec_skipIfKey x s, fun hk => ?_, fun hk => ?_, .of_v rfl, .of_regs s s.v _ []⟩,
    ⟨_, exec_skipIfNotKey x s, fun hk => ?_, fun hk => ?_, .of_v rfl, .of_regs s s.v _ []⟩⟩
  · exact s.skipIf_pc_of_true (hpressed hk)
  · exact s.skipIf_pc_of_false (hfree hk)
  · exact s.skipIf_pc_of_false (by rw [hpressed hk, Bool.not_true])
  · exact s.skipIf_pc_of_true (by rw [hfree hk, Bool.not_false])

/-- Settles O55: one register or one counter is written, and each has its frame. -/
theorem timerInstructions : Obligations.TimerInstructions :=
  fun x s =>
    ⟨exec_writes_result (exec_readDelayTimer x s) List.not_mem_nil,
      ⟨_, exec_setDelayTimer x s, rfl, .of_v rfl, rfl, .of_dt s _ _ (by decide)⟩,
      ⟨_, exec_setSoundTimer x s, rfl, .of_v rfl, rfl, .of_st s _ _ (by decide)⟩⟩

/-- Settles O56, by the two cases of the latch; a latched code extended to a byte keeps its value. -/
theorem awaitKeyTakesLatchedKey : Obligations.AwaitKeyTakesLatchedKey := by
  refine fun x s => ⟨fun k hk => ?_, fun hk => exec_awaitKey_of_empty hk x⟩
  refine ⟨_, exec_awaitKey_of_latched hk x, ?_,
    (SameRegsExcept.refl [x] s).setV (List.mem_singleton_self x) _, rfl, .of_regs s _ _ []⟩
  rw [State.getV_setV_nextInstr, keyToByte_toNat]

end Sys2Proof.Machine
end

section
/-!
SUPPORT. Which fault a step raises (spec/60_exceptions.md R192 to R197), said once: the fetch's own, the instruction's
own, or the guard's; and what an await-key (R209) and a row of calls (R193) do to a live machine.
-/

namespace Sys2Proof.Machine

/-! ### The faults of a fetch -/

/-- The words that match a row of the opcode map are those that decode (R64, R66). -/
theorem wordDefined_iff (w : Word) : wordDefined w = true ↔ ∃ i, decodeWord w = .ok i := by
  have ⟨hdec, hrow⟩ := decodeAgreesWithOpcodeMap w
  simp only [wordDefined, List.any_eq_true, OpcodeRow.matches, beq_iff_eq]
  constructor
  · rintro ⟨r, hr, hmatch⟩
    obtain ⟨i, hi, -⟩ := hrow r hr hmatch
    exact ⟨i, hi⟩
  · rintro ⟨i, hi⟩
    obtain ⟨r, hr, -, hmatch⟩ := hdec i hi
    exact ⟨r, hr, hmatch⟩

/-- The causes at fetch and decode (R192, R195). -/
inductive FetchFault (s : State) : Fault → Prop
  | outOfRange : 0xFFF ≤ s.pc.toNat → FetchFault s .outOfRangeAccess
  | unknown (w : Word) : fetchWord s = .ok w → wordDefined w = false → FetchFault s .unknownOpcode

theorem fetchInstr_eq_error_iff (s : State) (f : Fault) : fetchInstr s = .error f ↔ FetchFault s f := by
  rcases fetchInstr_cases s with ⟨hle, w, hw, ⟨i, hd, hi⟩ | ⟨⟨e, hd⟩, hi⟩⟩ | ⟨hge, hw, hi⟩ <;> rw [hi]
  · have hdef : wordDefined w = true := (wordDefined_iff w).2 ⟨i, hd⟩
    refine iff_of_false nofun fun h => ?_
    cases h with
    | outOfRange hge => omega
    | unknown w' hw' hundef =>
      obtain rfl : w = w' := Except.ok.inj (hw.symm.trans hw')
      exact absurd hdef (by simp [hundef])
  · have hundef : wordDefined w = false := by
      rw [← Bool.not_eq_true, wordDefined_iff, hd]
      exact fun ⟨_, h⟩ => nomatch h
    refine ⟨fun h => Except.error.inj h ▸ .unknown w hw hundef, fun h => ?_⟩
    cases h with
    | outOfRange hge => omega
    | unknown => rfl
  · refine ⟨fun h => Except.error.inj h ▸ .outOfRange hge, fun h => ?_⟩
    cases h with
    | outOfRange => rfl
    | unknown w hw' => rw [hw] at hw'; cases hw'

/-! ### The faults of an instruction -/

/-- The causes that an instruction's own rule names (R193 to R195). -/
inductive OwnFault (s : State) : Instr → Fault → Prop
  | callFull (nnn : Addr12) : 24 ≤ s.stack.length → OwnFault s (.call nnn) .stackOverflow
  | retEmpty : s.stack = [] → OwnFault s .ret .stackUnderflow
  | data {i : Instr} : DataOutOfRange i s → OwnFault s i .outOfRangeAccess

theorem exec_of_dataOutOfRange {i : Instr} {s : State} (h : DataOutOfRange i s) :
    exec i s = .next { s with fault := some .outOfRangeAccess } := by
  obtain ⟨x, y, n, rfl, hn, hge⟩ | ⟨x, rfl, hge⟩ | ⟨x, rfl | rfl, hge⟩ := h
  · exact exec_draw_of_gt (by rintro rfl; simp at hn) (by omega) x y
  · exact exec_storeBcd_of_ge hge x
  · exact exec_blockStore_of_ge hge
  · exact exec_blockLoad_of_ge hge

theorem exec_of_ownFault {i : Instr} {s : State} {f : Fault} (h : OwnFault s i f) :
    exec i s = .next { s with fault := some f } := by
  cases h with
  | callFull nnn hge => exact exec_call_of_ge hge nnn
  | retEmpty hs => exact exec_ret_of_nil hs
  | data hd => exact exec_of_dataOutOfRange hd

/-- An instruction that has no cause of its own completes with the FAULT it found. -/
theorem exec_completes_or_ownFault (i : Instr) (s : State) :
    (∃ t, exec i s = .next t ∧ t.fault = s.fault) ∨ ∃ f, OwnFault s i f := by
  cases i with
  | ret =>
    rcases pop_cases s with ⟨l, a, hs, -⟩ | ⟨hs, -⟩
    · exact .inl ⟨_, exec_ret_of_append hs, rfl⟩
    · exact .inr ⟨_, .retEmpty hs⟩
  | call nnn =>
    rcases Nat.lt_or_ge s.stack.length 24 with hlt | hge
    · exact .inl ⟨_, exec_call_of_lt hlt nnn, rfl⟩
    · exact .inr ⟨_, .callFull nnn hge⟩
  | draw x y n =>
    by_cases h : n = 0#4 ∨ s.idx.toNat + n.toNat ≤ 4096
    · obtain ⟨rows, -, -, hexec⟩ := exec_draw_of_le h x y
      exact .inl ⟨_, hexec, rfl⟩
    · obtain ⟨hn, hgt⟩ := not_or.1 h
      have hpos : n.toNat ≠ 0 := fun h0 => hn (BitVec.eq_of_toNat_eq h0)
      exact .inr ⟨_, .data (.inl ⟨x, y, n, rfl, by omega, by omega⟩)⟩
  | storeBcd x =>
    rcases Nat.lt_or_ge (s.idx.toNat + 2) 4096 with hlt | hge
    · obtain ⟨m, hexec, -⟩ := exec_storeBcd_of_lt hlt x
      exact .inl ⟨_, hexec, rfl⟩
    · exact .inr ⟨_, .data (.inr (.inl ⟨x, rfl, hge⟩))⟩
  | blockStore x =>
    rcases Nat.lt_or_ge (s.idx.toNat + x.toNat) 4096 with hlt | hge
    · obtain ⟨m, hexec, -⟩ := exec_blockStore_of_lt hlt
      exact .inl ⟨_, hexec, rfl⟩
    · exact .inr ⟨_, .data (.inr (.inr ⟨x, .inl rfl, hge⟩))⟩
  | blockLoad x =>
    rcases Nat.lt_or_ge (s.idx.toNat + x.toNat) 4096 with hlt | hge
    · obtain ⟨bs, hexec, -⟩ := exec_blockLoad_of_lt hlt
      exact .inl ⟨_, hexec, setRegistersFrom_fault s 0 bs⟩
    · exact .inr ⟨_, .data (.inr (.inr ⟨x, .inr rfl, hge⟩))⟩
  | awaitKey x =>
    cases hk : s.key with
    | none => exact .inl ⟨s, exec_awaitKey_of_empty hk x, rfl⟩
    | some k => exact .inl ⟨_, exec_awaitKey_of_latched hk x, rfl⟩
  | _ => exact .inl ⟨_, rfl, rfl⟩

/-- On a live machine the two ways an instruction ends exclude each other. -/
theorem exec_fault_iff {i : Instr} {s t : State} {f : Fault} (hs : s.fault = none) (h : exec i s = .next t) :
    t.fault = some f ↔ OwnFault s i f := by
  have hraised {g : Fault} (hg : OwnFault s i g) : t.fault = some g := by
    rw [Host.Outcome.next.inj (h.symm.trans (exec_of_ownFault hg))]
  refine ⟨fun hf => ?_, hraised⟩
  rcases exec_completes_or_ownFault i s with ⟨u, hu, hfault⟩ | ⟨g, hg⟩
  · rw [Host.Outcome.next.inj (h.symm.trans hu), hfault, hs] at hf
    cases hf
  · obtain rfl : g = f := Option.some.inj ((hraised hg).symm.trans hf)
    exact hg

/-- An instruction that ends with FAULT clear did what its rule says of a completed one. -/
theorem Completed.of_live {i : Instr} {s t : State} (h : exec i s = .next t) (ht : t.fault = none) :
    Completed i s t := by
  rcases exec_cases h with hc | ⟨-, f, rfl⟩
  · exact hc
  · cases ht

/-! ### The transfers that stall -/

theorem pcSkip_ne (s : State) (c : Bool) : pcSkip s c ≠ s.pc := by
  cases c
  · show s.pc + 2#16 ≠ s.pc
    bv_omega
  · show s.pc + 4#16 ≠ s.pc
    bv_omega

/-- What the guard compares (R88): of the instructions it does not spare, only the four transfers can complete with PC
where it was. A return with nothing to pop has no target. -/
theorem transferTarget_eq_pc_iff (i : Instr) (s : State) :
    transferTarget i s = some s.pc ↔
      pcAfter i s = s.pc ∧ sparedByGuard i = false ∧ ¬(i = .ret ∧ s.stack = []) := by
  have hnext : s.pc + 2#16 ≠ s.pc := by bv_omega
  cases i with
  | jump | call | jumpOffset => simp [transferTarget, pcAfter, sparedByGuard]
  | ret =>
    rcases List.eq_nil_or_concat s.stack with hl | ⟨l, a, hl⟩ <;> simp [transferTarget, pcAfter, sparedByGuard, hl]
  | awaitKey => simp [transferTarget, sparedByGuard]
  | skipEqImm | skipNeImm | skipEqReg | skipNeReg | skipIfKey | skipIfNotKey =>
    simp [transferTarget, pcAfter, pcSkip_ne]
  | _ => simp [transferTarget, pcAfter, hnext]

theorem transferTarget_eq_none_of_dataOutOfRange {i : Instr} {s : State} (h : DataOutOfRange i s) :
    transferTarget i s = none := by
  obtain ⟨x, y, n, rfl, -⟩ | ⟨x, rfl, -⟩ | ⟨x, rfl | rfl, -⟩ := h <;> rfl

/-- Of the transfers that have a target, only a call with a full stack has a cause of its own (R197). -/
theorem exists_ownFault_iff_of_target {i : Instr} {s : State} {a : Word} (h : transferTarget i s = some a) :
    (∃ f, OwnFault s i f) ↔ (∃ nnn, i = .call nnn) ∧ 24 ≤ s.stack.length := by
  constructor
  · rintro ⟨f, hf⟩
    cases hf with
    | callFull nnn hge => exact ⟨⟨nnn, rfl⟩, hge⟩
    | retEmpty hnil =>
      rw [transferTarget, hnil] at h
      cases h
    | data hd =>
      rw [transferTarget_eq_none_of_dataOutOfRange hd] at h
      cases h
  · rintro ⟨⟨nnn, rfl⟩, hge⟩
    exact ⟨_, .callFull nnn hge⟩

/-! ### The faults of a step -/

/-- The causes of a step, in the order in which it checks them (R197). -/
inductive StepFault (s : State) : Fault → Prop
  | fetch {f : Fault} : FetchFault s f → StepFault s f
  | instr {i : Instr} {f : Fault} : fetchInstr s = .ok i → OwnFault s i f → StepFault s f
  | stall {i : Instr} : fetchInstr s = .ok i → (¬∃ f, OwnFault s i f) → transferTarget i s = some s.pc →
      StepFault s .stalledProgramCounter

/-- Fault entry (R198): with a cause, a live machine's step sets FAULT and does nothing else. -/
theorem step_of_stepFault {s : State} {f : Fault} (hs : s.fault = none) (h : StepFault s f) :
    step s = .next { s with fault := some f } := by
  cases h with
  | fetch hf => exact step_fetch_error hs ((fetchInstr_eq_error_iff s f).2 hf)
  | instr hi hf => rw [step_fetch_ok hs hi, exec_of_ownFault hf, stallGuard_of_faulted]
  | @stall i hi hno htarget =>
    obtain ⟨t, ht, hfault⟩ := (exec_completes_or_ownFault i s).resolve_right hno
    have hlive : t.fault = none := hfault.trans hs
    obtain ⟨hpc, hspared, -⟩ := (transferTarget_eq_pc_iff i s).1 htarget
    rw [step_fetch_ok hs hi, ht, stallGuard_next,
      if_pos ⟨hlive, (Completed.of_live ht hlive).pc.trans hpc, hspared⟩]

/-- A step of a live machine raises a fault exactly when there is a cause for it. -/
theorem step_fault_iff {s t : State} {f : Fault} (hs : s.fault = none) (h : step s = .next t) :
    t.fault = some f ↔ StepFault s f := by
  refine ⟨fun ht => ?_, fun hf => by rw [Host.Outcome.next.inj (h.symm.trans (step_of_stepFault hs hf))]⟩
  obtain ⟨-, ⟨g, hg, rfl⟩ | ⟨i, u, hi, hu, ⟨⟨hlive, hpc, hspared⟩, rfl⟩ | ⟨-, rfl⟩⟩⟩ := step_cases h
  · cases ht
    exact .fetch ((fetchInstr_eq_error_iff s f).1 hg)
  · cases ht
    have hno : ¬∃ g, OwnFault s i g := fun ⟨g, hg⟩ => by
      rw [(exec_fault_iff hs hu).2 hg] at hlive
      cases hlive
    refine .stall hi hno ((transferTarget_eq_pc_iff i s).2 ⟨?_, hspared, ?_⟩)
    · rw [← (Completed.of_live hu hlive).pc, hpc]
    · rintro ⟨rfl, hnil⟩
      exact hno ⟨_, .retEmpty hnil⟩
  · exact .instr hi ((exec_fault_iff hs hu).1 ht)

/-! ### A row of calls -/

/-- As many calls as there is room for all succeed, each with one entry more on the stack. -/
theorem runCalls_of_room {targets : List Addr12} {s : State} (hs : s.fault = none)
    (hroom : s.stack.length + targets.length ≤ 24) :
    ∃ t, runCalls targets s = some t ∧ t.stack.length = s.stack.length + targets.length := by
  induction targets generalizing s with
  | nil => exact ⟨s, rfl, rfl⟩
  | cons nnn rest ih =>
    rw [List.length_cons] at hroom
    have hcall := exec_call_of_lt (s := s) (by omega) nnn
    obtain ⟨t, ht, hlen⟩ := ih (s := { s with stack := s.stack ++ [s.pc + 2#16], pc := addrOf nnn }) hs
      (by simp; omega)
    refine ⟨t, ?_, ?_⟩
    · simpa only [runCalls, hcall, hs, if_true] using ht
    · rw [hlen, List.length_append, List.length_singleton, List.length_cons]
      omega

/-! ### Waiting -/

/-- The guard spares await-key, so the step does what the instruction does (R88). -/
theorem step_awaitKey {s : State} {x : Nibble} (hs : s.fault = none) (hi : fetchInstr s = .ok (.awaitKey x)) :
    step s = exec (.awaitKey x) s := by
  obtain ⟨t, ht⟩ := exec_answers_next (.awaitKey x) s
  rw [step_fetch_ok hs hi, ht, stallGuard_next, if_neg (by simp [sparedByGuard])]

theorem run_of_step_self {s : State} (h : step s = .next s) (n : Nat) :
    Host.Core.run Sys2Proof.core n s = .next s := by
  induction n with
  | zero => rfl
  | succ n ih =>
    have hcore : Sys2Proof.core.step s = .next s := h
    simpa only [Host.Core.run, hcore] using ih

end Sys2Proof.Machine
end

section
/-!
SUPPORT. The obligations of the family 60_exceptions.
-/

namespace Sys2Proof.Machine

/-- Settles O13: a FAULT that is set has a cause in the state before, and with a cause the step is fault entry. -/
theorem faultingStepChangesOnlyFault : Obligations.FaultingStepChangesOnlyFault := by
  intro s t f hs h ht
  have hcause : StepFault s f := (step_fault_iff hs h).1 ht
  exact Host.Outcome.next.inj (h.symm.trans (step_of_stepFault hs hcause))

/-- Settles O14: of the causes of a step, by the fetch's and the instruction's; of LOAD, by its two cases. -/
theorem outOfRangeExactlyWhen : Obligations.OutOfRangeExactlyWhen := by
  refine ⟨fun s t hs h => ?_, fun s img hs => ?_⟩
  · rw [step_fault_iff hs h]
    constructor
    · intro hf
      cases hf with
      | fetch hf => cases hf with | outOfRange hge => exact .inl hge
      | instr hi hf => cases hf with | data hd => exact .inr ⟨_, hi, hd⟩
    · rintro (hge | ⟨i, hi, hd⟩)
      · exact .fetch (.outOfRange hge)
      · exact .instr hi (.data hd)
  · rcases load_cases hs img with ⟨hle, hw⟩ | ⟨hgt, hl⟩
    · have hlive : (load img s).fault = none := by rw [hw.rest, hs]
      rw [hlive]
      exact ⟨iff_of_false nofun (by omega), iff_of_true rfl (by omega)⟩
    · rw [hl]
      exact ⟨iff_of_true rfl (by omega), iff_of_false nofun (by omega)⟩

/-- Settles O11: of the causes of a step, the fetch of an undefined word is the only one of this name. -/
theorem unknownOpcodeExactlyWhen : Obligations.UnknownOpcodeExactlyWhen := by
  intro s t hs h
  rw [step_fault_iff hs h]
  constructor
  · intro hf
    cases hf with
    | fetch hf => cases hf with | unknown w hw hundef => exact ⟨w, hw, hundef⟩
    | instr _ hf => cases hf
  · rintro ⟨w, hw, hundef⟩
    exact .fetch (.unknown w hw hundef)

/-- Settles O15: of the causes of a step, by the instruction's own; and by the depth of the stack after 24 calls. -/
theorem stackFaultsExactlyWhen : Obligations.StackFaultsExactlyWhen := by
  refine ⟨fun s t hs h => ?_, fun s targets hs hnil hlen => ?_⟩
  · rw [step_fault_iff hs h, step_fault_iff hs h]
    refine ⟨⟨?_, ?_⟩, ⟨?_, ?_⟩⟩
    · intro hf
      cases hf with
      | fetch hf => cases hf
      | instr hi hf => cases hf with | callFull nnn hge => exact ⟨nnn, hi, hge⟩
    · rintro ⟨nnn, hi, hge⟩
      exact .instr hi (.callFull nnn hge)
    · intro hf
      cases hf with
      | fetch hf => cases hf
      | instr hi hf => cases hf with | retEmpty hnil => exact ⟨hi, hnil⟩
    · rintro ⟨hi, hnil⟩
      exact .instr hi (.retEmpty hnil)
  · obtain ⟨t, ht, hdepth⟩ := runCalls_of_room (targets := targets) hs (by simp [hnil, hlen])
    rw [hnil, hlen] at hdepth
    exact ⟨t, ht, hdepth, fun nnn => ⟨_, exec_call_of_ge hdepth.ge nnn, rfl⟩⟩

/-- Settles O16: of the causes of a step, the guard's is the only one of this name; a transfer's own fault, which comes
before it, is the call's. -/
theorem stallExactlyWhen : Obligations.StallExactlyWhen := by
  intro s t hs h
  rw [step_fault_iff hs h]
  constructor
  · intro hf
    cases hf with
    | fetch hf => cases hf
    | instr _ hf => cases hf
    | stall hi hno htarget => exact ⟨_, hi, htarget, mt (exists_ownFault_iff_of_target htarget).2 hno⟩
  · rintro ⟨i, hi, htarget, hroom⟩
    exact .stall hi (mt (exists_ownFault_iff_of_target htarget).1 hroom) htarget

/-- Settles O57: while the latch is empty the step is the identity, and KEY changes nothing of what is fetched. -/
theorem waitEndsWithKeyEvent : Obligations.WaitEndsWithKeyEvent := by
  intro s x k hs hi hk
  refine ⟨run_of_step_self ((step_awaitKey hs hi).trans (exec_awaitKey_of_empty hk x)), ?_⟩
  rw [keyEvent_live hs, step_awaitKey (s := { s with key := some k }) hs hi]
  refine ⟨_, exec_awaitKey_of_latched rfl x, ?_, rfl, rfl, hs⟩
  rw [State.getV_setV_nextInstr, keyToByte_toNat]

/-- Settles O12, event by event. -/
theorem faultIsSticky : Obligations.FaultIsSticky :=
  fun _ _ hf => ⟨step_dead hf, stepOutcome_dead hf, tick_dead hf, keyEvent_dead hf, load_dead hf, fun _ => rfl⟩

/-- Settles O58, by the value of a counter one lower. -/
theorem tickCountsBothDown : Obligations.TickCountsBothDown := by
  intro s hs
  rw [tick_live hs]
  have hdt : SameExcept [.dt, .st] s { s with dt := countDown s.dt } := .of_dt s _ s.pc (by decide)
  exact ⟨countDown_toNat s.dt, countDown_toNat s.st, .of_v rfl, rfl, hdt.trans (.of_st _ _ s.pc (by decide))⟩

end Sys2Proof.Machine
end

section
/-!
SUPPORT. The obligations of the family 70_reset_and_hazards.
-/

namespace Sys2Proof.Machine

/-- A bus read after RESET finds the byte of MEM_INIT below MEM_SIZE (R41, R220) and faults from there on (R42). -/
theorem memRead_resetEvent (init : Memory) (s : State) (a : Nat) :
    memRead (resetEvent init s) a = if a < 4096 then .ok (Memory.get a init) else .error .outOfRangeAccess := by
  split
  · next h => exact memRead_of_lt h
  · next h => exact memRead_of_ge (Nat.le_of_not_lt h)

/-- Settles O23: registers, display and memory by the laws of their readers, the plain fields by the definition of
RESET. -/
theorem resetStateValues : Obligations.ResetStateValues :=
  fun s init => ⟨State.getV_resetWith init, rfl, rfl, rfl, rfl, rfl, Framebuffer.cell_clear, rfl, rfl,
    memRead_resetEvent init s⟩

end Sys2Proof.Machine
end
